-- ==== Sys2Proof/Word.lean ====
section
/-! DEFINITION. The widths of the Machine's values (00_scope.md R5, R7): every architectural value is an unsigned
integer of a stated width, and there are no signed quantities. -/

namespace Sys2Proof

/-- A general register or a memory cell: `XLEN` = 8 bits (R5). -/
abbrev Byte := BitVec 8

/-- `I`, `pc`, a call-stack entry or an instruction word: 16 bits (R5). -/
abbrev Word := BitVec 16

/-- The immediate address `nnn`: 12 bits (30_encoding.md R91). -/
abbrev Address := BitVec 12

end Sys2Proof
end

