-- ==== Sys2Proof/Config.lean ====
section
/-! DEFINITION. The sizes and constants of 00_scope.md R5, which are fixed and not configurable, and the font table
of 20_memory.md R69. Nothing of this hardware is left open (R6), so there is no free value here. -/

namespace Sys2Proof.Config

/-- `MEM_SIZE`. -/
def memSize : Nat := 4096

/-- `ADDR_MAX`, the highest valid memory address. -/
def addrMax : Nat := 0xFFF

/-- `STACK_DEPTH`, entries of the call stack. -/
def stackDepth : Nat := 16

/-- `FB_W`, pixels in a framebuffer row. -/
def fbWidth : Nat := 64

/-- `FB_H`, rows of the framebuffer. -/
def fbHeight : Nat := 32

/-- `ILEN`, bytes of an instruction. -/
def instrBytes : Nat := 2

/-- `FONT_BASE`, the address of the first font sprite. -/
def fontBase : Nat := 0x050

/-- `FONT_END`, the address of the last font byte. -/
def fontEnd : Nat := 0x09F

/-- `FONT_STRIDE`, bytes of a font sprite. -/
def fontStride : Nat := 5

/-- `PROG_BASE`, the load address and the reset value of `pc`. -/
def progBase : Nat := 0x200

/-- `PROG_MAX`, bytes of the largest program. -/
def progMax : Nat := 3584

/-- The 80 bytes of the font, digit `d` at index `5 * d` (20_memory.md R69). PRESUMED by the spec itself: it marks
the bytes as general knowledge (93_implementation_defined.md G3); log 2. -/
def font : List Byte :=
  [0xF0, 0x90, 0x90, 0x90, 0xF0] ++ [0x20, 0x60, 0x20, 0x20, 0x70] ++
  [0xF0, 0x10, 0xF0, 0x80, 0xF0] ++ [0xF0, 0x10, 0xF0, 0x10, 0xF0] ++
  [0x90, 0x90, 0xF0, 0x10, 0x10] ++ [0xF0, 0x80, 0xF0, 0x10, 0xF0] ++
  [0xF0, 0x80, 0xF0, 0x90, 0xF0] ++ [0xF0, 0x10, 0x20, 0x40, 0x40] ++
  [0xF0, 0x90, 0xF0, 0x90, 0xF0] ++ [0xF0, 0x90, 0xF0, 0x10, 0xF0] ++
  [0xF0, 0x90, 0xF0, 0x90, 0x90] ++ [0xE0, 0x90, 0xE0, 0x90, 0xE0] ++
  [0xF0, 0x80, 0x80, 0x80, 0xF0] ++ [0xE0, 0x90, 0x90, 0x90, 0xE0] ++
  [0xF0, 0x80, 0xF0, 0x80, 0xF0] ++ [0xF0, 0x80, 0xF0, 0x80, 0x80]

end Sys2Proof.Config
end

