-- ==== Sys2Proof/Syntax.lean ====
section
/-! DEFINITION. The instructions, one constructor per row of spec/opcode_table.json (30_encoding.md R95, R97,
40_step_and_dispatch.md R124). Operands have the widths of 30_encoding.md R91, so that every value of an operand is
one the encoding admits. -/

namespace Sys2Proof

/-- A register number, the field `x` or `y` (30_encoding.md R91, R93): every value 0..15 is legal. -/
abbrev Reg := Fin 16

/-- `VF`, the register that is also the flag (10_state.md R22). -/
abbrev vf : Reg := 15

inductive Instr where
  /-- `00E0` `CLS` (R210). -/
  | cls
  /-- `00EE` `RET` (R140). -/
  | ret
  /-- `1nnn` `JP nnn` (R141). -/
  | jp (nnn : Address)
  /-- `2nnn` `CALL nnn` (R142). -/
  | call (nnn : Address)
  /-- `3xnn` `SE Vx,nn` (R143). -/
  | seImm (x : Reg) (nn : Byte)
  /-- `4xnn` `SNE Vx,nn` (R144). -/
  | sneImm (x : Reg) (nn : Byte)
  /-- `5xy0` `SE Vx,Vy` (R145). -/
  | seReg (x y : Reg)
  /-- `6xnn` `LD Vx,nn` (R160). -/
  | ldImm (x : Reg) (nn : Byte)
  /-- `7xnn` `ADD Vx,nn` (R161). -/
  | addImm (x : Reg) (nn : Byte)
  /-- `8xy0` `LD Vx,Vy` (R162). -/
  | ldReg (x y : Reg)
  /-- `8xy1` `OR Vx,Vy` (R163). -/
  | orReg (x y : Reg)
  /-- `8xy2` `AND Vx,Vy` (R164). -/
  | andReg (x y : Reg)
  /-- `8xy3` `XOR Vx,Vy` (R165). -/
  | xorReg (x y : Reg)
  /-- `8xy4` `ADD Vx,Vy` (R166). -/
  | addReg (x y : Reg)
  /-- `8xy5` `SUB Vx,Vy` (R167). -/
  | subReg (x y : Reg)
  /-- `8xy6` `SHR Vx,Vy` (R168). -/
  | shrReg (x y : Reg)
  /-- `8xy7` `SUBN Vx,Vy` (R169). -/
  | subnReg (x y : Reg)
  /-- `8xyE` `SHL Vx,Vy` (R170). -/
  | shlReg (x y : Reg)
  /-- `9xy0` `SNE Vx,Vy` (R146). -/
  | sneReg (x y : Reg)
  /-- `Annn` `LD I,nnn` (R190). -/
  | ldI (nnn : Address)
  /-- `Dxyn` `DRW Vx,Vy,n` (R211); `n` is the number of sprite rows. -/
  | drw (x y : Reg) (n : Fin 16)
  /-- `Fx07` `LD Vx,DT` (R230). -/
  | ldVxDt (x : Reg)
  /-- `Fx0A` `LD Vx,K` (R233). -/
  | ldVxK (x : Reg)
  /-- `Fx15` `LD DT,Vx` (R231). -/
  | ldDtVx (x : Reg)
  /-- `Fx18` `LD ST,Vx` (R232). -/
  | ldStVx (x : Reg)
  /-- `Fx1E` `ADD I,Vx` (R191). -/
  | addI (x : Reg)
  /-- `Fx29` `LD F,Vx` (R192). -/
  | ldF (x : Reg)
  /-- `Fx33` `LD B,Vx` (R193). -/
  | ldB (x : Reg)
  /-- `Fx55` `LD [I],Vx` (R194); `x` is the last register stored. -/
  | storeRegs (x : Reg)
  /-- `Fx65` `LD Vx,[I]` (R195); `x` is the last register loaded. -/
  | loadRegs (x : Reg)
  /-- `0nnn`, conventionally `SYS nnn`; an unrecognized word on this Machine (R97, R124). -/
  | sys (nnn : Address)
  /-- `Bnnn`, conventionally `JP V0,nnn`; an unrecognized word on this Machine (R97, R124). -/
  | jpV0 (nnn : Address)
  /-- `Cxnn`, conventionally `RND Vx,nn`; an unrecognized word on this Machine (R97, R124). -/
  | rnd (x : Reg) (nn : Byte)
  /-- `Ex9E`, conventionally `SKP Vx`; an unrecognized word on this Machine (R97, R124). -/
  | skp (x : Reg)
  /-- `ExA1`, conventionally `SKNP Vx`; an unrecognized word on this Machine (R97, R124). -/
  | sknp (x : Reg)
  /-- `UNRECOGNIZED` (`DW 0xhhhh`): any other word of 30_encoding.md R96; no field of it is used (R124). -/
  | unrecognized (w : Word)
deriving DecidableEq, Repr

/-- The number of an instruction's row: 1..30 as the column `#` of 30_encoding.md R95 has it, then the rows
31..36 of spec/opcode_table.json in its order. -/
def Instr.rowNumber : Instr → Nat
  | .cls => 1
  | .ret => 2
  | .jp _ => 3
  | .call _ => 4
  | .seImm _ _ => 5
  | .sneImm _ _ => 6
  | .seReg _ _ => 7
  | .ldImm _ _ => 8
  | .addImm _ _ => 9
  | .ldReg _ _ => 10
  | .orReg _ _ => 11
  | .andReg _ _ => 12
  | .xorReg _ _ => 13
  | .addReg _ _ => 14
  | .subReg _ _ => 15
  | .shrReg _ _ => 16
  | .subnReg _ _ => 17
  | .shlReg _ _ => 18
  | .sneReg _ _ => 19
  | .ldI _ => 20
  | .drw _ _ _ => 21
  | .ldVxDt _ => 22
  | .ldVxK _ => 23
  | .ldDtVx _ => 24
  | .ldStVx _ => 25
  | .addI _ => 26
  | .ldF _ => 27
  | .ldB _ => 28
  | .storeRegs _ => 29
  | .loadRegs _ => 30
  | .sys _ => 31
  | .jpV0 _ => 32
  | .rnd _ _ => 33
  | .skp _ => 34
  | .sknp _ => 35
  | .unrecognized _ => 36

/-- The thirty documented instructions, rows 1 to 30 (30_encoding.md R95, R97). -/
def Instr.recognized (i : Instr) : Bool := decide (i.rowNumber ≤ 30)

/-- The five conventional CHIP-8 encodings that this Machine does not implement (30_encoding.md R97). -/
def Instr.conventional (i : Instr) : Bool := decide (31 ≤ i.rowNumber ∧ i.rowNumber ≤ 35)

end Sys2Proof
end

