-- ==== Sys2Proof/Machine/State.lean ====
section
/-! DEFINITION. The state of the Machine: the record of 10_state.md R20 "and nothing else", its reset values
(R36), the faults (60_exceptions.md R260) and the refusals. -/

namespace Sys2Proof.Machine

/-- The kind of access that a `MemOutOfRange` record carries (60_exceptions.md R260). -/
inductive AccessKind where
  | fetch
  | read
  | write
deriving DecidableEq, Repr

/-- The three faults of 60_exceptions.md R260, each with the information it records.
A fault is recorded in the latch `State.fault` and the operation that raised it answers a next state
(R261, R262, 40_step_and_dispatch.md R125): no meaning and no step answers `Outcome.fault` (log 4). -/
inductive Fault where
  /-- Raised by `CALL nnn` with `sp = 16`. Safe: the source leaves the behaviour undefined (log 5). -/
  | stackOverflow (pc : Word)
  /-- Raised by `RET` with `sp = 0`. Safe: the source leaves the behaviour undefined (log 5). -/
  | stackUnderflow (pc : Word)
  /-- Raised by fetch, `DRW`, `LD B,Vx`, `LD [I],Vx` and `LD Vx,[I]` on an effective address above 0xFFF; `addr` is
  the lowest invalid address of the access, an unbounded integer (20_memory.md R62). Safe: the source leaves the
  behaviour undefined (log 5). -/
  | memOutOfRange (pc : Word) (addr : Nat) (kind : AccessKind)
deriving DecidableEq, Repr

/-- The cause code of a fault (60_exceptions.md R260). -/
def Fault.code : Fault → Nat
  | .stackOverflow _ => 1
  | .stackUnderflow _ => 2
  | .memOutOfRange _ _ _ => 3

/-- The `pc` that a fault records (60_exceptions.md R260). -/
def Fault.pc : Fault → Word
  | .stackOverflow pc => pc
  | .stackUnderflow pc => pc
  | .memOutOfRange pc _ _ => pc

/-- What the model gives no meaning. `step` and `exec` answer none of these. -/
inductive Refusal where
  /-- The answer of an arm of `exec` whose instruction has no meaning; no arm is such. Safe. -/
  | notModelled (mnemonic : String)
  /-- Raised by `Session.perform` for any operation but `Reset` before the first `Reset`
  (70_reset_and_hazards.md R291, D24). Safe: the spec gives it no meaning (log 16). -/
  | operationBeforeReset
  /-- Raised by `Session.perform` for a `Load` after a `Step` (70_reset_and_hazards.md R294, D21). Safe: the spec
  gives it no meaning and says that a model should refuse it (log 16); in a faulted state too (log 18). -/
  | loadAfterStep
deriving DecidableEq, Repr

/-- The key-wait latch (10_state.md R30). -/
inductive KeyWait where
  | notWaiting
  | waiting (r : Reg)
  | resolved
deriving DecidableEq, Repr

/-- `MEM`, sparse: address and byte, in the canonical form of `Memory.wf` (Machine/Memory.lean). -/
abbrev Memory := List Host.Cell

/-- `V` (10_state.md R21). -/
abbrev Registers := Vector Byte 16

/-- `STACK` (10_state.md R25). -/
abbrev CallStack := Vector Word 16

/-- `FB`, rows of cells: `FB[y][x]` is `fb[y][x]` (10_state.md R32). -/
abbrev Framebuffer := Vector (Vector Bool 64) 32

/-- `K` and `PK` (10_state.md R29, R31); `true` is pressed. -/
abbrev Keys := Vector Bool 16

/-- The framebuffer with every cell off. -/
def blankFramebuffer : Framebuffer := Vector.replicate 32 (Vector.replicate 64 false)

/-- No key pressed. -/
def noKeys : Keys := Vector.replicate 16 false

/-- The whole state of the Machine (10_state.md R20), a field per row of R20's table. -/
structure State where
  /-- `MEM` (R33). -/
  mem : Memory
  /-- `V` (R21). -/
  v : Registers
  /-- `I` (R23). -/
  i : Word
  /-- `pc` (R24). -/
  pc : Word
  /-- `STACK` (R25). -/
  stack : CallStack
  /-- `sp`, an integer 0..16 (R26; log 14). -/
  sp : Fin 17
  /-- `FB` (R32). -/
  fb : Framebuffer
  /-- `K` (R29). -/
  k : Keys
  /-- `DT` (R27). -/
  dt : Byte
  /-- `ST` (R28). -/
  st : Byte
  /-- `kw` (R30). -/
  kw : KeyWait
  /-- `PK` (R31). -/
  pk : Keys
  /-- `fault` (R34). -/
  fault : Option Fault
deriving DecidableEq, Repr

/-- The state after `Reset` (10_state.md R36). Memory with nothing listed reads as R36 has it
(Machine/Memory.lean). -/
def State.reset : State where
  mem := []
  v := Vector.replicate 16 0
  i := 0
  pc := 0x200
  stack := Vector.replicate 16 0
  sp := 0
  fb := blankFramebuffer
  k := noKeys
  dt := 0
  st := 0
  kw := .notWaiting
  pk := noKeys
  fault := none

end Sys2Proof.Machine
end

