-- ==== Sys2Proof/Machine/Memory.lean ====
section
/-! DEFINITION. The memory array of 20_memory.md R60 as a sparse list in one canonical form, and its two plain
operations on one byte. The range check is in Machine/Ops.lean. -/

namespace Sys2Proof.Machine

/-- What an address that the list does not hold reads as: the reset contents of 10_state.md R36 (log 15). -/
def unlistedByte (a : Nat) : Byte :=
  if Config.fontBase ≤ a ∧ a ≤ Config.fontEnd then Config.font.getD (a - Config.fontBase) 0 else 0

/-- The canonical form: addresses strictly rising, each a valid address, and no entry equal to what an unlisted
address reads as. Two memories in this form that read alike are equal. -/
abbrev Memory.wf (m : Memory) : Prop :=
  m.Pairwise (fun c d => c.1 < d.1) ∧ ∀ c ∈ m, c.1 < 4096 ∧ c.2 ≠ unlistedByte c.1

/-- `MEM[a]`. -/
def Memory.get : Memory → Nat → Byte
  | [], a => unlistedByte a
  | (c, b) :: m, a => if a = c then b else Memory.get m a

/-- An entry put before a memory, left out when the address reads so without it. -/
def Memory.listed (a : Nat) (b : Byte) (m : Memory) : Memory :=
  if b = unlistedByte a then m else (a, b) :: m

/-- `MEM[a] <- b`. -/
def Memory.set : Memory → Nat → Byte → Memory
  | [], a, b => Memory.listed a b []
  | (c, d) :: m, a, b =>
    if a < c then Memory.listed a b ((c, d) :: m)
    else if a = c then Memory.listed a b m
    else (c, d) :: Memory.set m a b

/-- `MEM[a] <- ` the first byte, `MEM[a + 1] <- ` the second, and so on. -/
def Memory.setRun : Memory → Nat → List Byte → Memory
  | m, _, [] => m
  | m, a, b :: bs => Memory.setRun (m.set a b) (a + 1) bs

end Sys2Proof.Machine
end

