-- ==== Sys2Proof/Machine/Ops.lean ====
section
/-! DEFINITION. The operations that the meanings share: registers, `pc`, the call stack, the checked memory
primitives of 20_memory.md R62 and R63, and taking a fault (60_exceptions.md R261, R263). -/

namespace Sys2Proof.Machine

/-- Read `V[x]` (00_scope.md R8). -/
def State.readV (s : State) (x : Reg) : Byte := s.v[x]

/-- `V[x] <- b` (00_scope.md R8). No register is hard-wired (10_state.md R21). -/
def State.writeV (s : State) (x : Reg) (b : Byte) : State := { s with v := s.v.set x b }

/-- `pc <- target` (00_scope.md R8). -/
def State.jump (s : State) (target : Word) : State := { s with pc := target }

/-- `pc <- (pc + 2) mod 65536` (40_step_and_dispatch.md R123). -/
def State.advance (s : State) : State := s.jump (s.pc + 2#16)

/-- `pc <- (pc + 4) mod 65536` when the condition holds, else `pc <- (pc + 2) mod 65536`
(41_control_transfer.md section 2). -/
def State.skipWhen (s : State) (condition : Bool) : State :=
  if condition then s.jump (s.pc + 4#16) else s.advance

/-- Fault entry: `fault <- (F, info)` and nothing else (60_exceptions.md R261). -/
def State.raise (s : State) (f : Fault) : State := { s with fault := some f }

/-- TAKING A FAULT, for every instruction: the state that an instruction's pseudocode leaves, or, where it raises,
the state before it with the latch set (00_scope.md R8, 60_exceptions.md R261, R263). Either way a next state
(40_step_and_dispatch.md R125; log 4). There is no return from a fault (60_exceptions.md R262). -/
def commit (s : State) (r : Except Fault State) : Host.Outcome State Fault Refusal :=
  match r with
  | .ok t => .next t
  | .error f => .next (s.raise f)

/-- `CheckRange(a, n)`: the run of `n` addresses from `a`, formed on unbounded integers, must lie in memory; the
address reported is the lowest invalid one. A run of 0 is not checked (20_memory.md R62). -/
def checkRange (pc : Word) (kind : AccessKind) (a n : Nat) : Except Fault Unit :=
  if n > 0 ∧ a + n - 1 > Config.addrMax then .error (.memOutOfRange pc (max a (Config.addrMax + 1)) kind)
  else .ok ()

/-- `MemRead(a, 1)` (20_memory.md R63). -/
def memRead (pc : Word) (kind : AccessKind) (m : Memory) (a : Nat) : Except Fault Byte :=
  if a > Config.addrMax then .error (.memOutOfRange pc a kind) else .ok (m.get a)

/-- `MemWrite(a, 1, b)` (20_memory.md R63). -/
def memWrite (pc : Word) (m : Memory) (a : Nat) (b : Byte) : Except Fault Memory :=
  if a > Config.addrMax then .error (.memOutOfRange pc a .write) else .ok (m.set a b)

/-- `n` reads at ascending addresses from `a` (20_memory.md R65). -/
def readBytes (pc : Word) (kind : AccessKind) (m : Memory) : Nat → Nat → Except Fault (List Byte)
  | _, 0 => .ok []
  | a, n + 1 => (memRead pc kind m a).bind fun b => (readBytes pc kind m (a + 1) n).map (fun bs => b :: bs)

/-- Writes at ascending addresses from `a` (20_memory.md R65). -/
def writeBytes (pc : Word) : Memory → Nat → List Byte → Except Fault Memory
  | m, _, [] => .ok m
  | m, a, b :: bs => (memWrite pc m a b).bind fun m' => writeBytes pc m' (a + 1) bs

/-- A data read of `n` bytes from `a`: the whole run is checked before any byte is read (20_memory.md R62). -/
def readRun (s : State) (kind : AccessKind) (a n : Nat) : Except Fault (List Byte) :=
  (checkRange s.pc kind a n).bind fun _ => readBytes s.pc kind s.mem a n

/-- A data write of some bytes from `a`: the whole run is checked before any byte is written (20_memory.md R62). -/
def writeRun (s : State) (a : Nat) (bytes : List Byte) : Except Fault State :=
  (checkRange s.pc .write a bytes.length).bind fun _ =>
    (writeBytes s.pc s.mem a bytes).map fun m => { s with mem := m }

/-- `STACK[sp] <- pc; sp <- sp + 1`, or `StackOverflow` when `sp = 16` (41_control_transfer.md R142). -/
def pushPc (s : State) : Except Fault State :=
  if h : s.sp.val < 16 then
    .ok { s with stack := s.stack.set s.sp.val s.pc h, sp := ⟨s.sp.val + 1, by omega⟩ }
  else .error (.stackOverflow s.pc)

/-- `sp <- sp - 1; t <- STACK[sp]`, or `StackUnderflow` when `sp = 0` (41_control_transfer.md R140). The slot is not
cleared (10_state.md R25). -/
def popAddress (s : State) : Except Fault (Word × State) :=
  if h : 0 < s.sp.val then
    .ok (s.stack[s.sp.val - 1]'(by omega), { s with sp := ⟨s.sp.val - 1, by omega⟩ })
  else .error (.stackUnderflow s.pc)

end Sys2Proof.Machine
end

