-- ==== Sys2Proof/Machine/Flags.lean ====
section
/-! DEFINITION. The flag that each of the six flag-writing instructions writes to `VF` (10_state.md R22), computed on
integers before the result is narrowed (42_immediate_and_alu.md R171). -/

namespace Sys2Proof.Machine

/-- A flag as the byte that `VF` holds. -/
def flagByte (flag : Bool) : Byte := if flag then 1 else 0

/-- `ADD Vx,Vy`: the 9-bit sum is above 0xFF (42_immediate_and_alu.md R166). -/
def carryFlag (a b : Byte) : Bool := decide (a.toNat + b.toNat > 0xFF)

/-- `SUB` and `SUBN`: the first operand is at least the second, no borrow (42_immediate_and_alu.md R167, R169). -/
def notBorrowFlag (a b : Byte) : Bool := decide (a.toNat ≥ b.toNat)

/-- `SHR`: the bit shifted out at the bottom (42_immediate_and_alu.md R168). -/
def lowBitFlag (b : Byte) : Bool := b.getLsbD 0

/-- `SHL`: the bit shifted out at the top (42_immediate_and_alu.md R170). -/
def highBitFlag (b : Byte) : Bool := b.getLsbD 7

/-- `V[15] <- ` the flag (42_immediate_and_alu.md R172, step 3). -/
def State.writeFlag (s : State) (flag : Bool) : State := s.writeV vf (flagByte flag)

end Sys2Proof.Machine
end

