-- ==== Sys2Proof/Machine/Operands.lean ====
section
/-! DEFINITION. The operand forms (30_encoding.md R93, 43_index_and_memory.md R196): direct registers, zero-extended
immediates, and the one memory addressing mode, `I` plus an offset that the instruction makes itself. -/

namespace Sys2Proof.Machine

/-- `zext_16(nnn)` (00_scope.md R7, 30_encoding.md R93). -/
def addressWord (nnn : Address) : Word := nnn.zeroExtend 16

/-- `I` as an effective address, an unbounded integer (20_memory.md R62). -/
def State.baseAddress (s : State) : Nat := s.i.toNat

/-- `0x050 + 5 * Vx`, of the whole of `Vx` (43_index_and_memory.md R192, C2). -/
def fontAddress (b : Byte) : Word := BitVec.ofNat 16 (Config.fontBase + Config.fontStride * b.toNat)

/-- The hundreds, tens and ones digits of a byte, in the order they are stored (43_index_and_memory.md R193). -/
def bcdDigits (b : Byte) : List Byte :=
  [BitVec.ofNat 8 (b.toNat / 100), BitVec.ofNat 8 (b.toNat / 10 % 10), BitVec.ofNat 8 (b.toNat % 10)]

/-- `V[0]` to `V[x]` (43_index_and_memory.md R194). -/
def firstRegisters (v : Registers) (x : Reg) : List Byte := v.toList.take (x.val + 1)

/-- `V[i] <- ` the first byte, `V[i + 1] <- ` the second, and so on (43_index_and_memory.md R195). -/
def loadFirstRegisters : Registers → Nat → List Byte → Registers
  | v, _, [] => v
  | v, i, b :: bs => loadFirstRegisters (v.setIfInBounds i b) (i + 1) bs

/-- `Vx mod 64`, the column a sprite starts in (44_display.md R211, R212). -/
def spriteColumn (b : Byte) : Nat := b.toNat % Config.fbWidth

/-- `Vy mod 32`, the row a sprite starts in (44_display.md R211, R212). -/
def spriteRow (b : Byte) : Nat := b.toNat % Config.fbHeight

end Sys2Proof.Machine
end

