-- ==== Sys2Proof/Machine/Alu.lean ====
section
/-! DEFINITION. Immediate loads and the register-register group (42_immediate_and_alu.md). Both operands are read
before anything is written, the result goes to `V[x]`, and then the flag, where there is one, to `V[15]` (R172). -/

namespace Sys2Proof.Machine

/-- The shape of the instructions that define no flag (R162 to R165). -/
def aluPlain (result : Byte → Byte → Byte) (x y : Reg) (s : State) : State :=
  (s.writeV x (result (s.readV x) (s.readV y))).advance

/-- The shape of the instructions that define a flag: result, then flag (R166 to R170, R172). -/
def aluFlagged (result : Byte → Byte → Byte) (flag : Byte → Byte → Bool) (x y : Reg) (s : State) : State :=
  ((s.writeV x (result (s.readV x) (s.readV y))).writeFlag (flag (s.readV x) (s.readV y))).advance

/-- `LD Vx,nn` (R160). -/
def execLdImm (x : Reg) (nn : Byte) (s : State) : Host.Outcome State Fault Refusal :=
  .next (s.writeV x nn).advance

/-- `ADD Vx,nn` (R161): wraps modulo 256, no flag. -/
def execAddImm (x : Reg) (nn : Byte) (s : State) : Host.Outcome State Fault Refusal :=
  .next (s.writeV x (s.readV x + nn)).advance

/-- `LD Vx,Vy` (R162). -/
def execLdReg (x y : Reg) (s : State) : Host.Outcome State Fault Refusal :=
  .next (aluPlain (fun _ b => b) x y s)

/-- `OR Vx,Vy` (R163). -/
def execOrReg (x y : Reg) (s : State) : Host.Outcome State Fault Refusal :=
  .next (aluPlain (fun a b => a ||| b) x y s)

/-- `AND Vx,Vy` (R164). -/
def execAndReg (x y : Reg) (s : State) : Host.Outcome State Fault Refusal :=
  .next (aluPlain (fun a b => a &&& b) x y s)

/-- `XOR Vx,Vy` (R165). -/
def execXorReg (x y : Reg) (s : State) : Host.Outcome State Fault Refusal :=
  .next (aluPlain (fun a b => a ^^^ b) x y s)

/-- `ADD Vx,Vy` (R166): `VF` is the carry. -/
def execAddReg (x y : Reg) (s : State) : Host.Outcome State Fault Refusal :=
  .next (aluFlagged (fun a b => a + b) carryFlag x y s)

/-- `SUB Vx,Vy` (R167): `Vx - Vy`, `VF` is not-borrow. -/
def execSubReg (x y : Reg) (s : State) : Host.Outcome State Fault Refusal :=
  .next (aluFlagged (fun a b => a - b) notBorrowFlag x y s)

/-- `SHR Vx,Vy` (R168): `Vy >> 1`, `VF` is bit 0 of `Vy`; the old `Vx` is not used. -/
def execShrReg (x y : Reg) (s : State) : Host.Outcome State Fault Refusal :=
  .next (aluFlagged (fun _ b => b >>> 1) (fun _ b => lowBitFlag b) x y s)

/-- `SUBN Vx,Vy` (R169): `Vy - Vx`, `VF` is not-borrow. -/
def execSubnReg (x y : Reg) (s : State) : Host.Outcome State Fault Refusal :=
  .next (aluFlagged (fun a b => b - a) (fun a b => notBorrowFlag b a) x y s)

/-- `SHL Vx,Vy` (R170): `Vy << 1`, `VF` is bit 7 of `Vy`; the old `Vx` is not used. -/
def execShlReg (x y : Reg) (s : State) : Host.Outcome State Fault Refusal :=
  .next (aluFlagged (fun _ b => b <<< 1) (fun _ b => highBitFlag b) x y s)

end Sys2Proof.Machine
end

