-- ==== Sys2Proof/Machine/Control.lean ====
section
/-! DEFINITION. Control transfer: return, jump, call and the four skips (41_control_transfer.md). -/

namespace Sys2Proof.Machine

/-- `RET` (R140): the popped call-site address plus 2, or `StackUnderflow`. -/
def execRet (s : State) : Host.Outcome State Fault Refusal :=
  commit s ((popAddress s).map fun popped => popped.2.jump (popped.1 + 2#16))

/-- `JP nnn` (R141). -/
def execJp (nnn : Address) (s : State) : Host.Outcome State Fault Refusal :=
  .next (s.jump (addressWord nnn))

/-- `CALL nnn` (R142): pushes its own address, or `StackOverflow`. -/
def execCall (nnn : Address) (s : State) : Host.Outcome State Fault Refusal :=
  commit s ((pushPc s).map fun pushed => pushed.jump (addressWord nnn))

/-- `SE Vx,nn` (R143). -/
def execSeImm (x : Reg) (nn : Byte) (s : State) : Host.Outcome State Fault Refusal :=
  .next (s.skipWhen (s.readV x == nn))

/-- `SNE Vx,nn` (R144). -/
def execSneImm (x : Reg) (nn : Byte) (s : State) : Host.Outcome State Fault Refusal :=
  .next (s.skipWhen (s.readV x != nn))

/-- `SE Vx,Vy` (R145). -/
def execSeReg (x y : Reg) (s : State) : Host.Outcome State Fault Refusal :=
  .next (s.skipWhen (s.readV x == s.readV y))

/-- `SNE Vx,Vy` (R146). -/
def execSneReg (x y : Reg) (s : State) : Host.Outcome State Fault Refusal :=
  .next (s.skipWhen (s.readV x != s.readV y))

end Sys2Proof.Machine
end

