-- ==== Sys2Proof/Machine/Display.lean ====
section
/-! DEFINITION. The display instructions (44_display.md). -/

namespace Sys2Proof.Machine

/-- `FB[py][px]` (10_state.md R32). -/
def Framebuffer.pixel (fb : Framebuffer) (px : Fin 64) (py : Fin 32) : Bool := fb[py][px]

/-- `FB[py][px] <- FB[py][px] xor 1`. -/
def Framebuffer.toggle (fb : Framebuffer) (px : Fin 64) (py : Fin 32) : Framebuffer :=
  fb.set py (fb[py].set px (!fb.pixel px py))

/-- The bit of a sprite byte in column `c`, 0 the leftmost: bit `7 - c` (R211). PRESUMED by the spec itself (G4);
log 3. -/
def spriteBit (b : Byte) (c : Nat) : Bool := b.getLsbD (7 - c)

/-- The cells, left to right, of the set bits of sprite row `r`, wrapped on both axes (R211, R212). -/
def spriteRowCells (x0 y0 r : Nat) (b : Byte) : List (Fin 64 × Fin 32) :=
  ((List.range 8).filter (spriteBit b)).map fun c => (Fin.ofNat 64 (x0 + c), Fin.ofNat 32 (y0 + r))

/-- The cells of the set bits of a sprite, its rows from row `r` on, top to bottom (R211). -/
def spriteCells (x0 y0 : Nat) : Nat → List Byte → List (Fin 64 × Fin 32)
  | _, [] => []
  | r, b :: bs => spriteRowCells x0 y0 r b ++ spriteCells x0 y0 (r + 1) bs

/-- One set bit drawn: a collision if the cell was on, and the cell is toggled (R211, R213). -/
def plotCell (drawn : Framebuffer × Bool) (cell : Fin 64 × Fin 32) : Framebuffer × Bool :=
  (drawn.1.toggle cell.1 cell.2, drawn.2 || drawn.1.pixel cell.1 cell.2)

/-- The framebuffer after a sprite is drawn, and whether any pixel collided (R211). -/
def drawSprite (fb : Framebuffer) (x0 y0 : Nat) (bytes : List Byte) : Framebuffer × Bool :=
  (spriteCells x0 y0 0 bytes).foldl plotCell (fb, false)

/-- `CLS` (R210). -/
def execCls (s : State) : Host.Outcome State Fault Refusal :=
  .next { s with fb := blankFramebuffer }.advance

/-- `DRW Vx,Vy,n` (R211). The coordinates are read before `VF` is written; the sprite's bytes are read before any
cell is drawn, which no state can tell from reading each as its row is drawn (log 13). -/
def execDrw (x y : Reg) (n : Fin 16) (s : State) : Host.Outcome State Fault Refusal :=
  commit s ((readRun s .read s.baseAddress n.val).map fun bytes =>
    let drawn := drawSprite s.fb (spriteColumn (s.readV x)) (spriteRow (s.readV y)) bytes
    (({ s with fb := drawn.1 } : State).writeFlag drawn.2).advance)

end Sys2Proof.Machine
end

