-- ==== Sys2Proof/Machine/Index.lean ====
section
/-! DEFINITION. The index register and the memory instructions (43_index_and_memory.md). None writes `VF` as a flag,
and the memory instructions leave `I` as it was. -/

namespace Sys2Proof.Machine

/-- `LD I,nnn` (R190). -/
def execLdI (nnn : Address) (s : State) : Host.Outcome State Fault Refusal :=
  .next { s with i := addressWord nnn }.advance

/-- `ADD I,Vx` (R191): `Vx` zero-extended, wraps modulo 65536, no flag. -/
def execAddI (x : Reg) (s : State) : Host.Outcome State Fault Refusal :=
  .next { s with i := s.i + (s.readV x).zeroExtend 16 }.advance

/-- `LD F,Vx` (R192). -/
def execLdF (x : Reg) (s : State) : Host.Outcome State Fault Refusal :=
  .next { s with i := fontAddress (s.readV x) }.advance

/-- `LD B,Vx` (R193). -/
def execLdB (x : Reg) (s : State) : Host.Outcome State Fault Refusal :=
  commit s ((writeRun s s.baseAddress (bcdDigits (s.readV x))).map State.advance)

/-- `LD [I],Vx` (R194). -/
def execStoreRegs (x : Reg) (s : State) : Host.Outcome State Fault Refusal :=
  commit s ((writeRun s s.baseAddress (firstRegisters s.v x)).map State.advance)

/-- `LD Vx,[I]` (R195). -/
def execLoadRegs (x : Reg) (s : State) : Host.Outcome State Fault Refusal :=
  commit s ((readRun s .read s.baseAddress (x.val + 1)).map fun bytes =>
    { s with v := loadFirstRegisters s.v 0 bytes }.advance)

end Sys2Proof.Machine
end

