-- ==== Sys2Proof/Machine/TimersKeypad.lean ====
section
/-! DEFINITION. The timer instructions, the wait-for-key instruction and the two wait phases of `Step`
(45_timers_and_keypad.md). -/

namespace Sys2Proof.Machine

/-- `LD Vx,DT` (R230). -/
def execLdVxDt (x : Reg) (s : State) : Host.Outcome State Fault Refusal :=
  .next (s.writeV x s.dt).advance

/-- `LD DT,Vx` (R231). -/
def execLdDtVx (x : Reg) (s : State) : Host.Outcome State Fault Refusal :=
  .next { s with dt := s.readV x }.advance

/-- `LD ST,Vx` (R232): never a buzzer event. -/
def execLdStVx (x : Reg) (s : State) : Host.Outcome State Fault Refusal :=
  .next { s with st := s.readV x }.advance

/-- `LD Vx,K` (R233), the step that enters the wait: `pc` and `Vx` are left as they were. -/
def execLdVxK (x : Reg) (s : State) : Host.Outcome State Fault Refusal :=
  .next { s with kw := .waiting x, pk := s.k }

/-- `K[key] = 1 and PK[key] = 0` (R234). -/
def newlyPressed (k pk : Keys) (key : Reg) : Bool := k[key] && !pk[key]

/-- `min(newly)`, the lowest key newly pressed (R234, D13). -/
def lowestNewKey (k pk : Keys) : Option Reg := (List.finRange 16).find? (newlyPressed k pk)

/-- The key's index, 0..15, as a register holds it (R234). -/
def keyByte (key : Reg) : Byte := BitVec.ofNat 8 key.val

/-- A `Step` with `kw = Waiting(r)` (R234): nothing is fetched and `pc` is not written. -/
def waitPhase (r : Reg) (s : State) : State :=
  match lowestNewKey s.k s.pk with
  | some key => { s.writeV r (keyByte key) with kw := .resolved, pk := s.k }
  | none => { s with pk := s.k }

/-- A `Step` with `kw = Resolved` (R235): the wait-for-key instruction completes. -/
def resolvedPhase (s : State) : State := { s.advance with kw := .notWaiting }

end Sys2Proof.Machine
end

