-- ==== Sys2Proof/Machine/Unrecognized.lean ====
section
/-! DEFINITION. The words outside the opcode map: permissive no-ops that only advance `pc`
(40_step_and_dispatch.md R124; 30_encoding.md R96, R97; log 6). -/

namespace Sys2Proof.Machine

/-- The unrecognized opcode: "No state change beyond the standard pc += 2 advance" (R124). -/
def noOperation (s : State) : State := s.advance

/-- `0nnn` other than `00E0` and `00EE` (R97, R124). -/
def execSys (_nnn : Address) (s : State) : Host.Outcome State Fault Refusal := .next (noOperation s)

/-- `Bnnn` (R97, R124). -/
def execJpV0 (_nnn : Address) (s : State) : Host.Outcome State Fault Refusal := .next (noOperation s)

/-- `Cxnn` (R97, R124). -/
def execRnd (_x : Reg) (_nn : Byte) (s : State) : Host.Outcome State Fault Refusal := .next (noOperation s)

/-- `Ex9E` (R97, R124). -/
def execSkp (_x : Reg) (s : State) : Host.Outcome State Fault Refusal := .next (noOperation s)

/-- `ExA1` (R97, R124). -/
def execSknp (_x : Reg) (s : State) : Host.Outcome State Fault Refusal := .next (noOperation s)

/-- Every other unrecognized word (R96, R124). -/
def execUnrecognized (_w : Word) (s : State) : Host.Outcome State Fault Refusal := .next (noOperation s)

end Sys2Proof.Machine
end

