-- ==== Sys2Proof/WellFormed.lean ====
section
/-! DEFINITION. The opcode map of 30_encoding.md R95 and R97 as data, and the well-formed instructions: those that
some instruction word stands for. The operand types already keep every field in its width, so the checks left are
those of the three rows whose pattern overlaps another row's. -/

namespace Sys2Proof

/-- A row of the opcode map: its number (`Instr.rowNumber`), its `match` value and its `mask` (30_encoding.md R95). -/
structure OpcodeRow where
  number : Nat
  value : Word
  mask : Word
deriving DecidableEq, Repr

/-- `(w and mask) = match` (30_encoding.md R94). -/
def OpcodeRow.covers (row : OpcodeRow) (w : Word) : Bool := w &&& row.mask == row.value

/-- The thirty rows of 30_encoding.md R95. PRESUMED by the spec itself but for row 19: log 1. -/
def recognizedRows : List OpcodeRow :=
  [⟨1, 0x00E0, 0xFFFF⟩, ⟨2, 0x00EE, 0xFFFF⟩, ⟨3, 0x1000, 0xF000⟩, ⟨4, 0x2000, 0xF000⟩, ⟨5, 0x3000, 0xF000⟩] ++
  [⟨6, 0x4000, 0xF000⟩, ⟨7, 0x5000, 0xF00F⟩, ⟨8, 0x6000, 0xF000⟩, ⟨9, 0x7000, 0xF000⟩, ⟨10, 0x8000, 0xF00F⟩] ++
  [⟨11, 0x8001, 0xF00F⟩, ⟨12, 0x8002, 0xF00F⟩, ⟨13, 0x8003, 0xF00F⟩, ⟨14, 0x8004, 0xF00F⟩, ⟨15, 0x8005, 0xF00F⟩] ++
  [⟨16, 0x8006, 0xF00F⟩, ⟨17, 0x8007, 0xF00F⟩, ⟨18, 0x800E, 0xF00F⟩, ⟨19, 0x9000, 0xF00F⟩, ⟨20, 0xA000, 0xF000⟩] ++
  [⟨21, 0xD000, 0xF000⟩, ⟨22, 0xF007, 0xF0FF⟩, ⟨23, 0xF00A, 0xF0FF⟩, ⟨24, 0xF015, 0xF0FF⟩, ⟨25, 0xF018, 0xF0FF⟩] ++
  [⟨26, 0xF01E, 0xF0FF⟩, ⟨27, 0xF029, 0xF0FF⟩, ⟨28, 0xF033, 0xF0FF⟩, ⟨29, 0xF055, 0xF0FF⟩, ⟨30, 0xF065, 0xF0FF⟩]

/-- The five conventional encodings of 30_encoding.md R97, of lower priority than `recognizedRows`. -/
def conventionalRows : List OpcodeRow :=
  [⟨31, 0x0000, 0xF000⟩, ⟨32, 0xB000, 0xF000⟩, ⟨33, 0xC000, 0xF000⟩, ⟨34, 0xE09E, 0xF0FF⟩, ⟨35, 0xE0A1, 0xF0FF⟩]

/-- Some instruction word stands for the instruction. `SYS nnn` leaves out `00E0` and `00EE`, which rows 1 and 2
take (30_encoding.md R96), and `UNRECOGNIZED` is only a word that no other row takes. -/
def Instr.wf : Instr → Bool
  | .sys nnn => nnn != 0x0E0 && nnn != 0x0EE
  | .unrecognized w => !(recognizedRows ++ conventionalRows).any (fun row => row.covers w)
  | .cls | .ret | .jp _ | .call _ | .seImm _ _ | .sneImm _ _ | .seReg _ _ | .ldImm _ _ | .addImm _ _ => true
  | .ldReg _ _ | .orReg _ _ | .andReg _ _ | .xorReg _ _ | .addReg _ _ | .subReg _ _ | .shrReg _ _ => true
  | .subnReg _ _ | .shlReg _ _ | .sneReg _ _ | .ldI _ | .drw _ _ _ | .ldVxDt _ | .ldVxK _ | .ldDtVx _ => true
  | .ldStVx _ | .addI _ | .ldF _ | .ldB _ | .storeRegs _ | .loadRegs _ | .jpV0 _ | .rnd _ _ | .skp _ | .sknp _ => true

end Sys2Proof
end

