-- ==== Sys2Proof/Decode.lean ====
section
/-! DEFINITION. Decoding and encoding (30_encoding.md R90 to R97, 40_step_and_dispatch.md R122). `decode` is the
decision list of R122 and `encode` puts the fields of R91 back under the formats of R92; the opcode map of R95 stands
apart, as data, in WellFormed.lean. -/

namespace Sys2Proof

/-- `op` = w[15:12] (R91). -/
def fieldOp (w : Word) : BitVec 4 := w.extractLsb' 12 4

/-- `x` = w[11:8] (R91). -/
def fieldX (w : Word) : Reg := (w.extractLsb' 8 4).toFin

/-- `y` = w[7:4] (R91). -/
def fieldY (w : Word) : Reg := (w.extractLsb' 4 4).toFin

/-- `n` = w[3:0] (R91), as bits: the secondary opcode of format XY. -/
def fieldN (w : Word) : BitVec 4 := w.extractLsb' 0 4

/-- `nn` = w[7:0] (R91). -/
def fieldNN (w : Word) : Byte := w.extractLsb' 0 8

/-- `nnn` = w[11:0] (R91). -/
def fieldNNN (w : Word) : Address := w.extractLsb' 0 12

/-- `op` = 0x8: the register-register group, keyed by the low nibble (R122). -/
def decodeAlu (w : Word) : Instr :=
  match fieldN w with
  | 0x0#4 => .ldReg (fieldX w) (fieldY w)
  | 0x1#4 => .orReg (fieldX w) (fieldY w)
  | 0x2#4 => .andReg (fieldX w) (fieldY w)
  | 0x3#4 => .xorReg (fieldX w) (fieldY w)
  | 0x4#4 => .addReg (fieldX w) (fieldY w)
  | 0x5#4 => .subReg (fieldX w) (fieldY w)
  | 0x6#4 => .shrReg (fieldX w) (fieldY w)
  | 0x7#4 => .subnReg (fieldX w) (fieldY w)
  | 0xE#4 => .shlReg (fieldX w) (fieldY w)
  | _ => .unrecognized w

/-- `op` = 0xF: the register-function group, keyed by the low byte (R122). -/
def decodeF (w : Word) : Instr :=
  match fieldNN w with
  | 0x07#8 => .ldVxDt (fieldX w)
  | 0x0A#8 => .ldVxK (fieldX w)
  | 0x15#8 => .ldDtVx (fieldX w)
  | 0x18#8 => .ldStVx (fieldX w)
  | 0x1E#8 => .addI (fieldX w)
  | 0x29#8 => .ldF (fieldX w)
  | 0x33#8 => .ldB (fieldX w)
  | 0x55#8 => .storeRegs (fieldX w)
  | 0x65#8 => .loadRegs (fieldX w)
  | _ => .unrecognized w

/-- The instruction a word stands for (R94, R122). Every word has one. The words of the five conventional encodings
of R97 keep a constructor of their own, so that a claim can name them; they act as `UNRECOGNIZED` does (log 6, log 7). -/
def decode (w : Word) : Instr :=
  match fieldOp w with
  | 0x0#4 => if w = 0x00E0#16 then .cls else if w = 0x00EE#16 then .ret else .sys (fieldNNN w)
  | 0x1#4 => .jp (fieldNNN w)
  | 0x2#4 => .call (fieldNNN w)
  | 0x3#4 => .seImm (fieldX w) (fieldNN w)
  | 0x4#4 => .sneImm (fieldX w) (fieldNN w)
  | 0x5#4 => if fieldN w = 0x0#4 then .seReg (fieldX w) (fieldY w) else .unrecognized w
  | 0x6#4 => .ldImm (fieldX w) (fieldNN w)
  | 0x7#4 => .addImm (fieldX w) (fieldNN w)
  | 0x8#4 => decodeAlu w
  | 0x9#4 => if fieldN w = 0x0#4 then .sneReg (fieldX w) (fieldY w) else .unrecognized w
  | 0xA#4 => .ldI (fieldNNN w)
  | 0xB#4 => .jpV0 (fieldNNN w)
  | 0xC#4 => .rnd (fieldX w) (fieldNN w)
  | 0xD#4 => .drw (fieldX w) (fieldY w) (fieldN w).toFin
  | 0xE#4 =>
    if fieldNN w = 0x9E#8 then .skp (fieldX w)
    else if fieldNN w = 0xA1#8 then .sknp (fieldX w)
    else .unrecognized w
  | _ => decodeF w

/-- Why a run of bytes holds no instruction: it is shorter than the two bytes of R90. -/
inductive DecodeError where
  /-- There is no byte. -/
  | noBytes
  /-- There is one byte, half of an instruction word. -/
  | halfWord (first : Byte)
deriving DecidableEq, Repr

/-- The 16-bit word of two bytes, the byte at the lower address high (20_memory.md R64). -/
def wordOfBytes (high low : Byte) : Word := high ++ low

/-- The first instruction of a run of bytes, and the bytes after it (R90). -/
def decodeBytes : List Byte → Except DecodeError (Instr × List Byte)
  | [] => .error .noBytes
  | [b] => .error (.halfWord b)
  | high :: low :: rest => .ok (decode (wordOfBytes high low), rest)

/-- A register number as the four bits of its field (R91). -/
def regBits (x : Reg) : BitVec 4 := BitVec.ofFin x

/-- Format A (R92): `op[4] nnn[12]`. -/
def formatA (op : BitVec 4) (nnn : Address) : Word := op ++ nnn

/-- Format XI (R92), and with a fixed low byte format XF: `op[4] x[4] nn[8]`. -/
def formatXI (op : BitVec 4) (x : Reg) (nn : Byte) : Word := op ++ regBits x ++ nn

/-- Format XYN (R92), and with a fixed low nibble format XY: `op[4] x[4] y[4] n[4]`. -/
def formatXYN (op : BitVec 4) (x y : Reg) (n : BitVec 4) : Word := op ++ regBits x ++ regBits y ++ n

/-- The word of an instruction (R92, R95, R97). -/
def encode : Instr → Word
  | .cls => 0x00E0
  | .ret => 0x00EE
  | .jp nnn => formatA 0x1 nnn
  | .call nnn => formatA 0x2 nnn
  | .seImm x nn => formatXI 0x3 x nn
  | .sneImm x nn => formatXI 0x4 x nn
  | .seReg x y => formatXYN 0x5 x y 0x0
  | .ldImm x nn => formatXI 0x6 x nn
  | .addImm x nn => formatXI 0x7 x nn
  | .ldReg x y => formatXYN 0x8 x y 0x0
  | .orReg x y => formatXYN 0x8 x y 0x1
  | .andReg x y => formatXYN 0x8 x y 0x2
  | .xorReg x y => formatXYN 0x8 x y 0x3
  | .addReg x y => formatXYN 0x8 x y 0x4
  | .subReg x y => formatXYN 0x8 x y 0x5
  | .shrReg x y => formatXYN 0x8 x y 0x6
  | .subnReg x y => formatXYN 0x8 x y 0x7
  | .shlReg x y => formatXYN 0x8 x y 0xE
  | .sneReg x y => formatXYN 0x9 x y 0x0
  | .ldI nnn => formatA 0xA nnn
  | .drw x y n => formatXYN 0xD x y (BitVec.ofFin n)
  | .ldVxDt x => formatXI 0xF x 0x07
  | .ldVxK x => formatXI 0xF x 0x0A
  | .ldDtVx x => formatXI 0xF x 0x15
  | .ldStVx x => formatXI 0xF x 0x18
  | .addI x => formatXI 0xF x 0x1E
  | .ldF x => formatXI 0xF x 0x29
  | .ldB x => formatXI 0xF x 0x33
  | .storeRegs x => formatXI 0xF x 0x55
  | .loadRegs x => formatXI 0xF x 0x65
  | .sys nnn => formatA 0x0 nnn
  | .jpV0 nnn => formatA 0xB nnn
  | .rnd x nn => formatXI 0xC x nn
  | .skp x => formatXI 0xE x 0x9E
  | .sknp x => formatXI 0xE x 0xA1
  | .unrecognized w => w

/-- The two bytes of a word as memory holds them, high byte first (20_memory.md R64). -/
def bytesOfWord (w : Word) : Byte × Byte := (w.extractLsb' 8 8, w.extractLsb' 0 8)

/-- The instruction word in a number whose bit 0 is the least significant bit of the first word and whose bits above
`nbits` are not the word's, as spec/opcode_table.json numbers it. -/
def tableWord (nbits w : Nat) : Word := BitVec.ofNat 16 (w % 2 ^ nbits)

/-- The instruction the decoder reads from the bytes of a table word, laid out as memory holds them. -/
def decodeTableWord (nbits w : Nat) : Option Instr :=
  let bytes := bytesOfWord (tableWord nbits w)
  match decodeBytes [bytes.1, bytes.2] with
  | .ok (i, _) => some i
  | .error _ => none

end Sys2Proof
end

