-- ==== Sys2Proof/Machine/Fetch.lean ====
section
/-! DEFINITION. Instruction fetch (20_memory.md R64, 40_step_and_dispatch.md R121), and the placing of an instruction
word where the next step fetches it. -/

namespace Sys2Proof.Machine

/-- `Fetch()`: both bytes are checked before either is read; big-endian; `pc` is not changed (R64, R121). -/
def fetch (s : State) : Except Fault Word :=
  (checkRange s.pc .fetch s.pc.toNat 2).bind fun _ =>
    (memRead s.pc .fetch s.mem s.pc.toNat).bind fun high =>
      (memRead s.pc .fetch s.mem (s.pc.toNat + 1)).map fun low => wordOfBytes high low

/-- Where `placeWord` puts an instruction: at `pc` where a fetch there can succeed (`pc` at most 0xFFE, R64), else at
the reset value of `pc`. -/
def placeAddress (s : State) : Word := if s.pc.toNat ≤ 0xFFE then s.pc else BitVec.ofNat 16 Config.progBase

/-- `s` with a word where the next step fetches, ready to fetch: not faulted and not in a key-wait (R120). It stands
for the host's `Load`, not for an operation of the Machine (log 10). -/
def placeWord (s : State) (w : Word) : State :=
  let bytes := bytesOfWord w
  { s with
    mem := s.mem.setRun (placeAddress s).toNat [bytes.1, bytes.2]
    pc := placeAddress s
    kw := .notWaiting
    fault := none }

end Sys2Proof.Machine
end

