-- ==== Sys2Proof/Machine/Step.lean ====
section
/-! DEFINITION. The `Step` operation (40_step_and_dispatch.md R120). -/

namespace Sys2Proof.Machine

/-- `Step()` (R120): a faulted Machine is stopped (60_exceptions.md R262); in a key-wait nothing is fetched
(45_timers_and_keypad.md R234, R235); otherwise one instruction is fetched, decoded and executed. -/
def step (s : State) : Host.Outcome State Fault Refusal :=
  match s.fault with
  | some _ => .next s
  | none =>
    match s.kw with
    | .waiting r => .next (waitPhase r s)
    | .resolved => .next (resolvedPhase s)
    | .notWaiting =>
      match fetch s with
      | .error f => .next (s.raise f)
      | .ok w => exec (decode w) s

/-- `s` with the table word `w` where the next step fetches its instruction (log 10). -/
def State.withFetchWord (s : State) (nbits w : Nat) : State := placeWord s (tableWord nbits w)

end Sys2Proof.Machine
end

