-- ==== Sys2Proof/Machine/Operations.lean ====
section
/-! DEFINITION. The host's five operations and its view of the framebuffer (70_reset_and_hazards.md R294), on a
state; and a session, the order in which a host may issue them (R291, R293, R294; log 8, log 9, log 16, log 18). -/

namespace Sys2Proof.Machine

/-- `Reset()` (R290): every field to the value of 10_state.md R36, whatever the state before. -/
def State.resetOperation (_s : State) : State := State.reset

/-- What `Load` answers its caller (R292). -/
inductive LoadResult where
  | ok
  | tooLarge
deriving DecidableEq, Repr

/-- `Load(bytes)` (R292), on any state. Its answer in a faulted state is one that no session gives (log 18). -/
def State.load (s : State) (bytes : List Byte) : State × LoadResult :=
  if s.fault ≠ none then (s, .ok)
  else if bytes.length > Config.progMax then (s, .tooLarge)
  else ({ s with mem := s.mem.setRun Config.progBase bytes }, .ok)

/-- `SetKeys(k)` (45_timers_and_keypad.md R239). -/
def State.setKeys (s : State) (keys : Keys) : State :=
  if s.fault ≠ none then s else { s with k := keys }

/-- A timer decremented once, never below 0 (45_timers_and_keypad.md R236). -/
def countDown (t : Byte) : Byte := if t.toNat > 0 then t - 1 else t

/-- `Tick()` (45_timers_and_keypad.md R236, R237): the state after it, and `buzz`, which is stored nowhere. -/
def State.tick (s : State) : State × Bool :=
  if s.fault ≠ none then (s, false)
  else
    ({ s with dt := countDown s.dt, st := countDown s.st }, decide (s.st.toNat > 0) && countDown s.st == 0)

/-- The Display Sink's read-only view: cell `(px, py)` of `FB` (R294, 10_state.md R32). -/
def State.display (s : State) (px : Fin 64) (py : Fin 32) : Bool := s.fb[py][px]

/-- The fault that an operation raised, if one was: the result of a `Step` as a model returns it (R294). -/
def faultRaised (before after : State) : Option Fault := if before.fault = none then after.fault else none

/-- An operation of the host (R294). -/
inductive Operation where
  | reset
  | load (bytes : List Byte)
  | setKeys (keys : Keys)
  | step
  | tick
deriving DecidableEq, Repr

/-- What an operation returns to the host (R294). -/
inductive Result where
  | done
  | loaded (r : LoadResult)
  | stepped (raised : Option Fault)
  | ticked (buzz : Bool)
deriving DecidableEq, Repr

/-- How far a host has come: no `Reset` yet, when the state of the Machine is unspecified (R291); or a state, with
whether a `Step` has been issued since the last `Reset` (R294). -/
inductive Session where
  | beforeReset
  | live (s : State) (stepped : Bool)
deriving DecidableEq, Repr

/-- One operation of the host. What the spec gives no meaning is refused by name: an operation other than `Reset`
before the first `Reset` (R291), and a `Load` after a `Step` (R294). DESIGN CHOICE: a `Load` in a faulted state, which
only a `Step` can bring about, is such a `Load` and is refused, although R292 gives it the answer `OK` (log 18). -/
def Session.perform (session : Session) (op : Operation) : Host.Outcome (Session × Result) Fault Refusal :=
  match session, op with
  | _, .reset => .next (.live State.reset false, .done)
  | .beforeReset, _ => .refused .operationBeforeReset
  | .live _ true, .load _ => .refused .loadAfterStep
  | .live s false, .load bytes => .next (.live (s.load bytes).1 false, .loaded (s.load bytes).2)
  | .live s stepped, .setKeys keys => .next (.live (s.setKeys keys) stepped, .done)
  | .live s stepped, .tick => .next (.live s.tick.1 stepped, .ticked s.tick.2)
  | .live s _, .step =>
    match step s with
    | .next t => .next (.live t true, .stepped (faultRaised s t))
    | .fault f => .fault f
    | .refused r => .refused r

/-- A host's operations in order, with what each returned; it stops at the first refusal. -/
def Session.performAll (session : Session) : List Operation → Host.Outcome (Session × List Result) Fault Refusal
  | [] => .next (session, [])
  | op :: ops =>
    match session.perform op with
    | .fault f => .fault f
    | .refused r => .refused r
    | .next (after, result) =>
      match after.performAll ops with
      | .fault f => .fault f
      | .refused r => .refused r
      | .next (last, results) => .next (last, result :: results)

/-- Where a sequence stands in the grammar of R294: no `Reset` yet, in the `Load`s after one, or past them. -/
inductive GrammarPlace where
  | start
  | loading
  | running
deriving DecidableEq, Repr

/-- The grammar of R294, `Reset (Load)* (SetKeys | Step | Tick)*`, repeated from `Reset`, from a place in it. -/
def legalFrom : GrammarPlace → List Operation → Bool
  | _, [] => true
  | _, .reset :: ops => legalFrom .loading ops
  | .start, _ :: _ => false
  | .loading, .load _ :: ops => legalFrom .loading ops
  | .running, .load _ :: _ => false
  | .loading, _ :: ops => legalFrom .running ops
  | .running, _ :: ops => legalFrom .running ops

/-- A legal sequence of operations (R294). -/
def legalSequence (ops : List Operation) : Bool := legalFrom .start ops

end Sys2Proof.Machine
end

