-- ==== Sys2Proof/Safety.lean ====
section
/-! DEFINITION. The terms in which claims about the Machine are stated: a safe run, the invariant of every reachable
state, the spec's own tables of which instruction faults, stores or writes a register, and what a program must keep
to itself because the Machine does not check it. None of these is used by the machine. -/

namespace Sys2Proof.Machine

/-- A state that has not faulted. A faulted state is not a normal end of a run (60_exceptions.md R262). -/
abbrev State.safe (s : State) : Prop := s.fault = none

/-- `n` steps from `s` end in `t` without a fault (60_exceptions.md R262, 70_reset_and_hazards.md R295). -/
def SafeRun (n : Nat) (s t : State) : Prop := Sys2Proof.core.run n s = .next t ∧ t.safe

/-- The instruction that the next step executes: none when the Machine is stopped, in a key-wait, or cannot fetch
(40_step_and_dispatch.md R120). -/
def State.nextInstr (s : State) : Option Instr :=
  if s.fault = none ∧ s.kw = .notWaiting then
    match fetch s with
    | .ok w => some (decode w)
    | .error _ => none
  else none

/-- The next step does not execute one of the five conventional instructions that are no-ops here. A claim about a
program that means what its author meant takes this as a premise (30_encoding.md R97, 93_implementation_defined.md U6). -/
def State.avoidsConventional (s : State) : Prop := ∀ i, s.nextInstr = some i → i.conventional = false

/-- The run of addresses an instruction stores to, as its first address and length, when it does not fault
(20_memory.md R67): the same base address that its meaning uses. -/
def storedRun (i : Instr) (s : State) : Option (Nat × Nat) :=
  match i with
  | .ldB _ => some (s.baseAddress, 3)
  | .storeRegs x => some (s.baseAddress, x.val + 1)
  | _ => none

/-- The run of addresses an instruction reads data from, when it does not fault (20_memory.md R67). -/
def readDataRun (i : Instr) (s : State) : Option (Nat × Nat) :=
  match i with
  | .drw _ _ n => some (s.baseAddress, n.val)
  | .loadRegs x => some (s.baseAddress, x.val + 1)
  | _ => none

/-- The lowest invalid address of a run, where it has one (20_memory.md R62). -/
def lowestInvalid (a n : Nat) : Option Nat := if 0 < n ∧ 0x1000 < a + n then some (max a 0x1000) else none

/-- The fault that an instruction raises, from the table and the exact conditions of 60_exceptions.md R260. -/
def faultOf (i : Instr) (s : State) : Option Fault :=
  match i with
  | .call _ => if s.sp.val = 16 then some (.stackOverflow s.pc) else none
  | .ret => if s.sp.val = 0 then some (.stackUnderflow s.pc) else none
  | .drw _ _ n => (lowestInvalid s.baseAddress n.val).map fun a => .memOutOfRange s.pc a .read
  | .ldB _ => (lowestInvalid s.baseAddress 3).map fun a => .memOutOfRange s.pc a .write
  | .storeRegs x => (lowestInvalid s.baseAddress (x.val + 1)).map fun a => .memOutOfRange s.pc a .write
  | .loadRegs x => (lowestInvalid s.baseAddress (x.val + 1)).map fun a => .memOutOfRange s.pc a .read
  | _ => none

/-- The fault of a fetch (60_exceptions.md R260). -/
def fetchFault (s : State) : Option Fault :=
  if s.pc.toNat > 0xFFE then some (.memOutOfRange s.pc (max s.pc.toNat 0x1000) .fetch) else none

/-- The registers an instruction may write: its destination, and `VF` for the six that define a flag
(10_state.md R22, 43_index_and_memory.md R195). -/
def mayWriteV (i : Instr) (r : Reg) : Prop :=
  match i with
  | .ldImm x _ | .addImm x _ | .ldReg x _ | .orReg x _ | .andReg x _ | .xorReg x _ | .ldVxDt x => r = x
  | .addReg x _ | .subReg x _ | .shrReg x _ | .subnReg x _ | .shlReg x _ => r = x ∨ r = vf
  | .drw _ _ _ => r = vf
  | .loadRegs x => r.val ≤ x.val
  | _ => False

/-- Every byte of memory reads as it did. -/
def MemoryUnchanged (s t : State) : Prop := ∀ a, t.mem.get a = s.mem.get a

/-- Every byte outside the `n` bytes from `a` reads as it did. -/
def MemoryUnchangedOutside (a n : Nat) (s t : State) : Prop :=
  ∀ b, b < a ∨ a + n ≤ b → t.mem.get b = s.mem.get b

/-- Frame: only `pc` may change; every register, timer, key, stack entry, pixel, latch and byte is as it was. -/
def OnlyPc (s t : State) : Prop := MemoryUnchanged s t ∧ t = { s with pc := t.pc }

/-- Frame: only `V` and `pc` may change. -/
def OnlyRegistersAndPc (s t : State) : Prop := MemoryUnchanged s t ∧ t = { s with v := t.v, pc := t.pc }

/-- Frame: only `I` and `pc` may change. -/
def OnlyIndexAndPc (s t : State) : Prop := MemoryUnchanged s t ∧ t = { s with i := t.i, pc := t.pc }

/-- Every register but `x` holds what it held. -/
def RegistersUnchangedBut (x : Reg) (s t : State) : Prop := ∀ r : Reg, r ≠ x → t.v[r] = s.v[r]

/-- Every register but `x` and `VF` holds what it held. -/
def RegistersUnchangedButFlag (x : Reg) (s t : State) : Prop := ∀ r : Reg, r ≠ x → r ≠ vf → t.v[r] = s.v[r]

/-- What a recorded fault says of the state it stopped (60_exceptions.md R260). -/
def Fault.grounds (f : Fault) (s : State) : Prop :=
  match f with
  | .stackOverflow _ => s.sp.val = 16
  | .stackUnderflow _ => s.sp.val = 0
  | .memOutOfRange _ addr _ => 0x1000 ≤ addr

/-- The invariant of every state that a run from reset reaches. -/
structure State.Inv (s : State) : Prop where
  /-- Memory keeps its canonical form, inside 0x000..0xFFF (20_memory.md R60). -/
  memory : s.mem.wf
  /-- "the largest value `pc` can reach is" 0x1002 (10_state.md R24). -/
  pcBound : s.pc.toNat ≤ 0x1002
  /-- A key-wait is entered only by an instruction that was fetched (45_timers_and_keypad.md R235), and never faults. -/
  waitFetched : s.kw ≠ .notWaiting → s.pc.toNat ≤ 0xFFE ∧ s.fault = none
  /-- A pushed address was fetched from (41_control_transfer.md R140). -/
  callSites : ∀ slot : Fin 16, slot.val < s.sp.val → s.stack[slot].toNat ≤ 0xFFE
  /-- A fault's record names the `pc` it stopped at (60_exceptions.md R263). -/
  faultPc : ∀ f, s.fault = some f → f.pc = s.pc
  /-- A fault stands on its grounds, which nothing has changed since (60_exceptions.md R260, R262). -/
  faultGrounds : ∀ f, s.fault = some f → f.grounds s

/-- `pc` and every outstanding call site are even: what the source calls a standing property of `pc`, and the Machine
does not check (20_memory.md R66, 70_reset_and_hazards.md R308). -/
def State.evenPc (s : State) : Prop :=
  s.pc.toNat % 2 = 0 ∧ ∀ slot : Fin 16, slot.val < s.sp.val → s.stack[slot].toNat % 2 = 0

/-- A jump or call has an even target: a program's duty (20_memory.md R66). -/
def evenTarget : Instr → Prop
  | .jp nnn => nnn.toNat % 2 = 0
  | .call nnn => nnn.toNat % 2 = 0
  | _ => True

/-- An instruction stores nothing below 0x050: a program's duty, which the Machine does not check (20_memory.md R70,
70_reset_and_hazards.md R306). -/
def storesAboveReserved (i : Instr) (s : State) : Prop :=
  ∀ a n, storedRun i s = some (a, n) → Config.fontBase ≤ a

/-- `step` from a state that has nothing to do but execute the same jump for ever: a program's way to say that it is
done (41_control_transfer.md R141, 70_reset_and_hazards.md R295). -/
def State.atSelfJump (s : State) : Prop := ∃ nnn, s.nextInstr = some (.jp nnn) ∧ addressWord nnn = s.pc

end Sys2Proof.Machine
end

