-- ==== Sys2Proof/Certificates/Slice0/Obligations.lean ====
section
/-! DEFINITION. The statements for the provers, and the few words they are stated in. A statement about an instruction
says its encoding as 30_encoding.md R95 gives it (a match value and a mask), its result, its frame and its faults. -/

namespace Sys2Proof.Claims

open Sys2Proof.Machine

/-- `w[low + width - 1 : low]` as a number (00_scope.md R7). -/
def bitsAt (w : Word) (low width : Nat) : Nat := w.toNat / 2 ^ low % 2 ^ width

/-- `x` = w[11:8] (30_encoding.md R91). -/
def xOf (w : Word) : Reg := Fin.ofNat 16 (bitsAt w 8 4)

/-- `y` = w[7:4] (30_encoding.md R91). -/
def yOf (w : Word) : Reg := Fin.ofNat 16 (bitsAt w 4 4)

/-- `n` = w[3:0] (30_encoding.md R91). -/
def nOf (w : Word) : Fin 16 := Fin.ofNat 16 (bitsAt w 0 4)

/-- `nn` = w[7:0] (30_encoding.md R91). -/
def nnOf (w : Word) : Byte := BitVec.ofNat 8 (bitsAt w 0 8)

/-- `nnn` = w[11:0] (30_encoding.md R91). -/
def nnnOf (w : Word) : Address := BitVec.ofNat 12 (bitsAt w 0 12)

/-- Every word with `(w and mask) = value` decodes to the instruction given, with its fields (30_encoding.md R94). -/
def EncodedAs (value mask : Word) (i : Word → Instr) : Prop := ∀ w, w &&& mask = value → decode w = i w

/-- The word of two bytes, the first the high one (20_memory.md R64). -/
def bigEndian (high low : Byte) : Word := BitVec.ofNat 16 (256 * high.toNat + low.toNat)

/-- A run of `n` addresses from `a` that may be accessed (20_memory.md R62). -/
def InRange (a n : Nat) : Prop := n = 0 ∨ a + n ≤ 0x1000

/-- The key is down now and was up when the keypad was last looked at (45_timers_and_keypad.md R234). -/
def NewlyDown (s : State) (key : Reg) : Prop := s.k[key] = true ∧ s.pk[key] = false

/-- The set bit of the sprite of `DRW Vx,Vy,n` that lands on pixel `(px, py)`, if one does
(44_display.md R212): the row is how far the pixel lies below the start, the column how far right of it, on the torus. -/
def SpriteBitAt (s : State) (x y : Reg) (n : Fin 16) (px : Fin 64) (py : Fin 32) : Prop :=
  (py.val + 32 - s.v[y].toNat % 32) % 32 < n.val ∧ (px.val + 64 - s.v[x].toNat % 64) % 64 < 8 ∧
    (s.mem.get (s.baseAddress + (py.val + 32 - s.v[y].toNat % 32) % 32)).getLsbD
      (7 - (px.val + 64 - s.v[x].toNat % 64) % 64) = true

/-- `n` ticks: the state after them and what each returned. -/
def ticks : Nat → State → State × List Bool
  | 0, s => (s, [])
  | n + 1, s => ((ticks n s.tick.1).1, s.tick.2 :: (ticks n s.tick.1).2)

end Sys2Proof.Claims

open Sys2Proof Sys2Proof.Machine Sys2Proof.Claims

/-! ## Encoding -/

/-- Decoding what is encoded gives the instruction back, with every operand at every value. -/
def Obligations.DecodeOfEncode : Prop := ∀ i : Instr, i.wf = true → decode (encode i) = i

/-- Every word decodes to a well-formed instruction whose encoding is that word: no bit is dropped. -/
def Obligations.EncodeOfDecode : Prop := ∀ w : Word, (decode w).wf = true ∧ encode (decode w) = w

/-- 30_encoding.md R94: the row whose `(w and mask) = match` gives the instruction, no two rows overlap, and a word of
no row is unrecognized and executes as R124 says. -/
def Obligations.DecodeFollowsOpcodeMap : Prop :=
  ∀ w : Word,
    (∀ row ∈ recognizedRows, ∀ other ∈ recognizedRows,
      row.covers w = true → other.covers w = true → row = other) ∧
    (∀ row ∈ recognizedRows, row.covers w = true → (decode w).rowNumber = row.number) ∧
    ((∀ row ∈ recognizedRows, row.covers w = false) →
      (decode w).recognized = false ∧ ∀ s : State, exec (decode w) s = .next { s with pc := s.pc + 2#16 })

/-- 30_encoding.md R96: the unrecognized words are exactly those of its list. -/
def Obligations.UnrecognizedWordsAreTheList : Prop :=
  ∀ w : Word, (decode w).recognized = false ↔
    (bitsAt w 12 4 = 0x0 ∧ bitsAt w 0 12 ≠ 0x0E0 ∧ bitsAt w 0 12 ≠ 0x0EE) ∨
    (bitsAt w 12 4 = 0x5 ∧ bitsAt w 0 4 ≠ 0) ∨
    (bitsAt w 12 4 = 0x8 ∧ bitsAt w 0 4 ∈ [0x8, 0x9, 0xA, 0xB, 0xC, 0xD, 0xF]) ∨
    (bitsAt w 12 4 = 0x9 ∧ bitsAt w 0 4 ≠ 0) ∨
    bitsAt w 12 4 = 0xB ∨ bitsAt w 12 4 = 0xC ∨ bitsAt w 12 4 = 0xE ∨
    (bitsAt w 12 4 = 0xF ∧ bitsAt w 0 8 ∉ [0x07, 0x0A, 0x15, 0x18, 0x1E, 0x29, 0x33, 0x55, 0x65])

/-- Words of 95_test_vectors.md section 2.0, one or more of every family, decode to the instructions listed there. The
section lists C1FF as unrecognized, conventionally `RND`: that it decodes to `rnd`, one of the constructors for
unrecognized words, is the model's naming (log 7). -/
def Obligations.WrittenWordsDecode : Prop :=
  decode 0x00E0 = .cls ∧ decode 0x00EE = .ret ∧ decode 0x1ABC = .jp 0xABC ∧ decode 0x3A7F = .seImm 0xA 0x7F ∧
  decode 0x7E01 = .addImm 0xE 0x01 ∧ decode 0x8127 = .subnReg 1 2 ∧ decode 0x9AB0 = .sneReg 0xA 0xB ∧
  decode 0xA123 = .ldI 0x123 ∧ decode 0xD3A7 = .drw 3 0xA 7 ∧ decode 0xF10A = .ldVxK 1 ∧
  decode 0xF155 = .storeRegs 1 ∧ decode 0x5AB1 = .unrecognized 0x5AB1 ∧ decode 0xC1FF = .rnd 1 0xFF

/-- 20_memory.md R64, 30_encoding.md R90: two bytes are an instruction, the first high; fewer are rejected by name. -/
def Obligations.DecodeBytesBigEndian : Prop :=
  (∀ (high low : Byte) (rest : List Byte),
    decodeBytes (high :: low :: rest) = .ok (decode (bigEndian high low), rest)) ∧
  (∀ b : Byte, decodeBytes [b] = .error (.halfWord b)) ∧ decodeBytes [] = .error .noBytes

/-! ## The step -/

/-- 40_step_and_dispatch.md R120: a step does exactly one of four things. In the fourth, where the bytes at `pc` can
be fetched, the step is `exec` of what they decode to, on the state as it is: the step itself changes nothing. -/
def Obligations.StepRunsTheDecodedInstruction : Prop :=
  ∀ s : State,
    (s.fault ≠ none → step s = .next s) ∧
    (∀ r, s.fault = none → s.kw = .waiting r → step s = .next (waitPhase r s)) ∧
    (s.fault = none → s.kw = .resolved → step s = .next (resolvedPhase s)) ∧
    (s.fault = none → s.kw = .notWaiting → s.pc.toNat ≤ 0xFFE →
      step s = exec (decode (bigEndian (s.mem.get s.pc.toNat) (s.mem.get (s.pc.toNat + 1)))) s)

/-- 40_step_and_dispatch.md R121: fetch is the two-byte big-endian read at `pc`; above 0xFFE the step changes nothing
but `fault`; after reset and load the first step decodes the instruction at 0x200. -/
def Obligations.FetchReadsTwoBytesAtPc : Prop :=
  (∀ s : State, s.pc.toNat ≤ 0xFFE →
    fetch s = .ok (bigEndian (s.mem.get s.pc.toNat) (s.mem.get (s.pc.toNat + 1)))) ∧
  (∀ s : State, s.fault = none → s.kw = .notWaiting → 0xFFE < s.pc.toNat →
    step s = .next { s with fault := some (.memOutOfRange s.pc (max s.pc.toNat 0x1000) .fetch) }) ∧
  (∀ bytes : List Byte, bytes.length ≤ 3584 →
    step (State.reset.load bytes).1 =
      exec (decode (bigEndian (bytes.getD 0 0) (bytes.getD 1 0))) (State.reset.load bytes).1)

/-- Every step has exactly one next state, and there is no stop: R125 of 40_step_and_dispatch.md, which the spec marks
as derived. That every instruction has one on every state, where no step would run it too, is the model's own (log 11). -/
def Obligations.StepAlwaysHasOneNextState : Prop :=
  (∀ s : State, ∃! t, step s = .next t) ∧ ∀ (i : Instr) (s : State), ∃! t, exec i s = .next t

/-- The word placed by `withFetchWord` is what the next step runs (the model's own helper, log 10). -/
def Obligations.PlacedWordRunsNext : Prop :=
  ∀ (s : State) (nbits w : Nat), s.mem.wf →
    ∃ i, decodeTableWord nbits w = some i ∧
      step (s.withFetchWord nbits w) = exec i (s.withFetchWord nbits w)

/-! ## The invariant -/

/-- Every step keeps the invariant: canonical memory, `pc` at most 0x1002, key-waits only at a fetched instruction,
call sites at most 0xFFE, and a fault that stands on its grounds. -/
def Obligations.StepKeepsInvariant : Prop := ∀ s t : State, s.Inv → step s = .next t → t.Inv

/-- The reset state has the invariant. -/
def Obligations.ResetHasInvariant : Prop := State.reset.Inv

/-- The host's other operations keep the invariant. -/
def Obligations.HostOperationsKeepInvariant : Prop :=
  ∀ s : State, s.Inv →
    (∀ bytes, (s.load bytes).1.Inv) ∧ (∀ keys, (s.setKeys keys).Inv) ∧ s.tick.1.Inv ∧ s.resetOperation.Inv

/-- Whatever operations a host issues, in whatever order, every state it reaches has the invariant. -/
def Obligations.ReachableStatesHaveInvariant : Prop :=
  ∀ (ops : List Operation) (s : State) (stepped : Bool) (results : List Result),
    Session.beforeReset.performAll ops = .next (.live s stepped, results) → s.Inv

/-! ## Faults -/

/-- 20_memory.md R62, R63: the range check and the two memory primitives. -/
def Obligations.RangeCheckReportsLowestInvalid : Prop :=
  ∀ (pc : Word) (kind : AccessKind) (m : Memory) (a n : Nat) (b : Byte),
    (InRange a n → checkRange pc kind a n = .ok ()) ∧
    (¬ InRange a n → checkRange pc kind a n = .error (.memOutOfRange pc (max a 0x1000) kind)) ∧
    (a ≤ 0xFFF → memRead pc kind m a = .ok (m.get a)) ∧
    (0xFFF < a → memRead pc kind m a = .error (.memOutOfRange pc a kind)) ∧
    (a ≤ 0xFFF → m.wf → ∃ m', memWrite pc m a b = .ok m' ∧ m'.get a = b ∧ ∀ c, c ≠ a → m'.get c = m.get c) ∧
    (0xFFF < a → memWrite pc m a b = .error (.memOutOfRange pc a .write))

/-- 60_exceptions.md R260: the faults of fetch and of every instruction are exactly those of its table, with the
information it lists; a key-wait phase and the other operations raise none; and the codes. -/
def Obligations.FaultsAreExactlyTheTable : Prop :=
  (∀ (i : Instr) (s t : State), s.fault = none → exec i s = .next t → t.fault = faultOf i s) ∧
  (∀ s t : State, s.fault = none → s.kw = .notWaiting → 0xFFE < s.pc.toNat → step s = .next t →
    t.fault = some (.memOutOfRange s.pc (max s.pc.toNat 0x1000) .fetch)) ∧
  (∀ s t : State, s.fault = none → s.kw ≠ .notWaiting → step s = .next t → t.fault = none) ∧
  (∀ s : State, s.fault = none → s.tick.1.fault = none ∧ (∀ keys, (s.setKeys keys).fault = none) ∧
    ∀ bytes, (s.load bytes).1.fault = none) ∧
  (∀ (pc : Word) (a : Nat) (kind : AccessKind), (Fault.stackOverflow pc).code = 1 ∧
    (Fault.stackUnderflow pc).code = 2 ∧ (Fault.memOutOfRange pc a kind).code = 3)

/-- 60_exceptions.md R261, R263: a step that faults changes nothing but the latch, and the record names the `pc`. -/
def Obligations.FaultsArePrecise : Prop :=
  ∀ (s t : State) (f : Fault), s.fault = none → step s = .next t → t.fault = some f →
    t = { s with fault := some f } ∧ f.pc = s.pc ∧ ∀ a, t.mem.get a = s.mem.get a

/-- 60_exceptions.md R262: while the latch is set, every operation but `Reset` changes nothing, for ever. -/
def Obligations.FaultedMachineIsStopped : Prop :=
  ∀ s : State, s.fault ≠ none →
    (∀ n, Sys2Proof.core.run n s = .next s) ∧ step s = .next s ∧ s.tick = (s, false) ∧
    (∀ keys, s.setKeys keys = s) ∧ (∀ bytes, s.load bytes = (s, .ok)) ∧
    s.resetOperation = State.reset ∧ s.resetOperation.fault = none

/-! ## Unrecognized words -/

/-- 40_step_and_dispatch.md R124: a word outside the opcode map, the five conventional ones included, advances `pc`
by 2 and changes nothing else. -/
def Obligations.UnrecognizedIsNoOperation : Prop :=
  (∀ w : Word, (∀ row ∈ recognizedRows, row.covers w = false) →
    ∀ s : State, exec (decode w) s = .next { s with pc := s.pc + 2#16 }) ∧
  (∀ (s : State) (nnn : Address) (x : Reg) (nn : Byte) (w : Word) (i : Instr),
    i ∈ [.sys nnn, .jpV0 nnn, .rnd x nn, .skp x, .sknp x, .unrecognized w] →
      ∃ t, exec i s = .next t ∧ t.pc.toNat = (s.pc.toNat + 2) % 65536 ∧ OnlyPc s t)

/-! ## Control transfer -/

/-- 41_control_transfer.md R140: `RET`. -/
def Obligations.RetPopsCallSiteAndAddsTwo : Prop :=
  EncodedAs 0x00EE 0xFFFF (fun _ => .ret) ∧
  (∀ (s : State) (slot : Fin 16), s.sp.val = slot.val + 1 → ∃ t, exec .ret s = .next t ∧
    t.sp.val = slot.val ∧ t.pc.toNat = (s.stack[slot].toNat + 2) % 65536 ∧
    MemoryUnchanged s t ∧ t = { s with sp := t.sp, pc := t.pc }) ∧
  (∀ s : State, s.sp.val = 0 → exec .ret s = .next { s with fault := some (.stackUnderflow s.pc) })

/-- 41_control_transfer.md R141: `JP nnn`. -/
def Obligations.JpSetsPc : Prop :=
  EncodedAs 0x1000 0xF000 (fun w => .jp (nnnOf w)) ∧
  ∀ (s : State) (nnn : Address), ∃ t, exec (.jp nnn) s = .next t ∧ t.pc.toNat = nnn.toNat ∧ OnlyPc s t

/-- 41_control_transfer.md R142: `CALL nnn`. -/
def Obligations.CallPushesItsOwnAddress : Prop :=
  EncodedAs 0x2000 0xF000 (fun w => .call (nnnOf w)) ∧
  (∀ (s : State) (nnn : Address) (slot : Fin 16), s.sp.val = slot.val → ∃ t, exec (.call nnn) s = .next t ∧
    t.stack[slot] = s.pc ∧ (∀ other : Fin 16, other ≠ slot → t.stack[other] = s.stack[other]) ∧
    t.sp.val = slot.val + 1 ∧ t.pc.toNat = nnn.toNat ∧
    MemoryUnchanged s t ∧ t = { s with stack := t.stack, sp := t.sp, pc := t.pc }) ∧
  (∀ (s : State) (nnn : Address), s.sp.val = 16 →
    exec (.call nnn) s = .next { s with fault := some (.stackOverflow s.pc) })

/-- 95_test_vectors.md S3: a call and then a return come back to the call site plus 2, with the same depth. -/
def Obligations.CallThenReturnComesBack : Prop :=
  ∀ (s t : State) (nnn : Address), s.sp.val < 16 → exec (.call nnn) s = .next t →
    exec .ret t = .next { s with stack := t.stack, pc := s.pc + 2#16 }

/-- 41_control_transfer.md R143 to R146: the four skips. -/
def Obligations.SkipsAddFourOrTwo : Prop :=
  EncodedAs 0x3000 0xF000 (fun w => .seImm (xOf w) (nnOf w)) ∧
  EncodedAs 0x4000 0xF000 (fun w => .sneImm (xOf w) (nnOf w)) ∧
  EncodedAs 0x5000 0xF00F (fun w => .seReg (xOf w) (yOf w)) ∧
  EncodedAs 0x9000 0xF00F (fun w => .sneReg (xOf w) (yOf w)) ∧
  ∀ (s : State) (x y : Reg) (nn : Byte),
    (∃ t, exec (.seImm x nn) s = .next t ∧ OnlyPc s t ∧
      t.pc.toNat = (s.pc.toNat + if s.v[x] = nn then 4 else 2) % 65536) ∧
    (∃ t, exec (.sneImm x nn) s = .next t ∧ OnlyPc s t ∧
      t.pc.toNat = (s.pc.toNat + if s.v[x] = nn then 2 else 4) % 65536) ∧
    (∃ t, exec (.seReg x y) s = .next t ∧ OnlyPc s t ∧
      t.pc.toNat = (s.pc.toNat + if s.v[x] = s.v[y] then 4 else 2) % 65536) ∧
    (∃ t, exec (.sneReg x y) s = .next t ∧ OnlyPc s t ∧
      t.pc.toNat = (s.pc.toNat + if s.v[x] = s.v[y] then 2 else 4) % 65536)

/-- 70_reset_and_hazards.md R295: a program that has reached a jump to itself stays there, and nothing changes. -/
def Obligations.JumpToSelfIsTheEnd : Prop := ∀ s : State, s.atSelfJump → ∀ n, SafeRun n s s

/-- 20_memory.md R66: from an even `pc` and even call sites, `pc` becomes odd only by a jump or call to an odd target. -/
def Obligations.PcStaysEven : Prop :=
  ∀ s t : State, s.evenPc → (∀ i, s.nextInstr = some i → evenTarget i) → step s = .next t → t.evenPc

/-! ## Immediate loads and the ALU group -/

/-- 42_immediate_and_alu.md R160, R161: `LD Vx,nn` and `ADD Vx,nn`, which wraps and writes no flag. -/
def Obligations.ImmediateFormsWriteVx : Prop :=
  EncodedAs 0x6000 0xF000 (fun w => .ldImm (xOf w) (nnOf w)) ∧
  EncodedAs 0x7000 0xF000 (fun w => .addImm (xOf w) (nnOf w)) ∧
  ∀ (s : State) (x : Reg) (nn : Byte),
    (∃ t, exec (.ldImm x nn) s = .next t ∧ t.v[x] = nn ∧ t.pc.toNat = (s.pc.toNat + 2) % 65536 ∧
      RegistersUnchangedBut x s t ∧ OnlyRegistersAndPc s t) ∧
    (∃ t, exec (.addImm x nn) s = .next t ∧ t.v[x].toNat = (s.v[x].toNat + nn.toNat) % 256 ∧
      t.pc.toNat = (s.pc.toNat + 2) % 65536 ∧ RegistersUnchangedBut x s t ∧ OnlyRegistersAndPc s t)

/-- 42_immediate_and_alu.md R162 to R165: the move and the three logic operations write `Vx` bit by bit and no flag. -/
def Obligations.MoveAndLogicWriteNoFlag : Prop :=
  EncodedAs 0x8000 0xF00F (fun w => .ldReg (xOf w) (yOf w)) ∧
  EncodedAs 0x8001 0xF00F (fun w => .orReg (xOf w) (yOf w)) ∧
  EncodedAs 0x8002 0xF00F (fun w => .andReg (xOf w) (yOf w)) ∧
  EncodedAs 0x8003 0xF00F (fun w => .xorReg (xOf w) (yOf w)) ∧
  ∀ (s : State) (x y : Reg),
    (∃ t, exec (.ldReg x y) s = .next t ∧ t.v[x] = s.v[y] ∧ t.pc.toNat = (s.pc.toNat + 2) % 65536 ∧
      RegistersUnchangedBut x s t ∧ OnlyRegistersAndPc s t) ∧
    (∃ t, exec (.orReg x y) s = .next t ∧
      (∀ j, t.v[x].getLsbD j = (s.v[x].getLsbD j || s.v[y].getLsbD j)) ∧
      t.pc.toNat = (s.pc.toNat + 2) % 65536 ∧ RegistersUnchangedBut x s t ∧ OnlyRegistersAndPc s t) ∧
    (∃ t, exec (.andReg x y) s = .next t ∧
      (∀ j, t.v[x].getLsbD j = (s.v[x].getLsbD j && s.v[y].getLsbD j)) ∧
      t.pc.toNat = (s.pc.toNat + 2) % 65536 ∧ RegistersUnchangedBut x s t ∧ OnlyRegistersAndPc s t) ∧
    (∃ t, exec (.xorReg x y) s = .next t ∧
      (∀ j, t.v[x].getLsbD j = (s.v[x].getLsbD j ^^ s.v[y].getLsbD j)) ∧
      t.pc.toNat = (s.pc.toNat + 2) % 65536 ∧ RegistersUnchangedBut x s t ∧ OnlyRegistersAndPc s t)

/-- 42_immediate_and_alu.md R166, R167, R169: `ADD`, `SUB` and `SUBN` write the low 8 bits of the result to `Vx` and
then the carry or not-borrow to `VF`; with `x = 15` the flag is what remains. -/
def Obligations.ArithmeticWritesResultThenFlag : Prop :=
  EncodedAs 0x8004 0xF00F (fun w => .addReg (xOf w) (yOf w)) ∧
  EncodedAs 0x8005 0xF00F (fun w => .subReg (xOf w) (yOf w)) ∧
  EncodedAs 0x8007 0xF00F (fun w => .subnReg (xOf w) (yOf w)) ∧
  ∀ (s : State) (x y : Reg),
    (∃ t, exec (.addReg x y) s = .next t ∧
      (x ≠ vf → t.v[x].toNat = (s.v[x].toNat + s.v[y].toNat) % 256) ∧
      t.v[vf].toNat = (if s.v[x].toNat + s.v[y].toNat > 0xFF then 1 else 0) ∧
      t.pc.toNat = (s.pc.toNat + 2) % 65536 ∧ RegistersUnchangedButFlag x s t ∧ OnlyRegistersAndPc s t) ∧
    (∃ t, exec (.subReg x y) s = .next t ∧
      (x ≠ vf → t.v[x].toNat = (256 + s.v[x].toNat - s.v[y].toNat) % 256) ∧
      t.v[vf].toNat = (if s.v[x].toNat ≥ s.v[y].toNat then 1 else 0) ∧
      t.pc.toNat = (s.pc.toNat + 2) % 65536 ∧ RegistersUnchangedButFlag x s t ∧ OnlyRegistersAndPc s t) ∧
    (∃ t, exec (.subnReg x y) s = .next t ∧
      (x ≠ vf → t.v[x].toNat = (256 + s.v[y].toNat - s.v[x].toNat) % 256) ∧
      t.v[vf].toNat = (if s.v[y].toNat ≥ s.v[x].toNat then 1 else 0) ∧
      t.pc.toNat = (s.pc.toNat + 2) % 65536 ∧ RegistersUnchangedButFlag x s t ∧ OnlyRegistersAndPc s t)

/-- 42_immediate_and_alu.md R168, R170: `SHR` and `SHL` shift `Vy` by one into `Vx` and then write the bit shifted out
to `VF`; with `x = 15` the flag is what remains. -/
def Obligations.ShiftsMoveVyAndKeepTheLostBit : Prop :=
  EncodedAs 0x8006 0xF00F (fun w => .shrReg (xOf w) (yOf w)) ∧
  EncodedAs 0x800E 0xF00F (fun w => .shlReg (xOf w) (yOf w)) ∧
  ∀ (s : State) (x y : Reg),
    (∃ t, exec (.shrReg x y) s = .next t ∧ (x ≠ vf → t.v[x].toNat = s.v[y].toNat / 2) ∧
      t.v[vf].toNat = s.v[y].toNat % 2 ∧
      t.pc.toNat = (s.pc.toNat + 2) % 65536 ∧ RegistersUnchangedButFlag x s t ∧ OnlyRegistersAndPc s t) ∧
    (∃ t, exec (.shlReg x y) s = .next t ∧ (x ≠ vf → t.v[x].toNat = s.v[y].toNat * 2 % 256) ∧
      t.v[vf].toNat = s.v[y].toNat / 128 ∧
      t.pc.toNat = (s.pc.toNat + 2) % 65536 ∧ RegistersUnchangedButFlag x s t ∧ OnlyRegistersAndPc s t)

/-- 10_state.md section 2: a register changes only if the instruction names it as its destination, or it is `VF` and
the instruction is one of the six that define a flag. -/
def Obligations.RegistersChangeOnlyByTheirWriters : Prop :=
  ∀ (i : Instr) (s t : State) (r : Reg), exec i s = .next t → ¬ mayWriteV i r → t.v[r] = s.v[r]

/-! ## Index register and memory -/

/-- 43_index_and_memory.md R190, R191, R192: the three writers of `I`. -/
def Obligations.IndexWritersSetI : Prop :=
  EncodedAs 0xA000 0xF000 (fun w => .ldI (nnnOf w)) ∧
  EncodedAs 0xF01E 0xF0FF (fun w => .addI (xOf w)) ∧
  EncodedAs 0xF029 0xF0FF (fun w => .ldF (xOf w)) ∧
  ∀ (s : State) (x : Reg) (nnn : Address),
    (∃ t, exec (.ldI nnn) s = .next t ∧ t.i.toNat = nnn.toNat ∧
      t.pc.toNat = (s.pc.toNat + 2) % 65536 ∧ OnlyIndexAndPc s t) ∧
    (∃ t, exec (.addI x) s = .next t ∧ t.i.toNat = (s.i.toNat + s.v[x].toNat) % 65536 ∧
      t.pc.toNat = (s.pc.toNat + 2) % 65536 ∧ OnlyIndexAndPc s t) ∧
    (∃ t, exec (.ldF x) s = .next t ∧ t.i.toNat = 0x050 + 5 * s.v[x].toNat ∧
      t.pc.toNat = (s.pc.toNat + 2) % 65536 ∧ OnlyIndexAndPc s t)

/-- 43_index_and_memory.md R193: `LD B,Vx` stores three decimal digits from `I`, or faults whole. -/
def Obligations.BcdStoresThreeDigits : Prop :=
  EncodedAs 0xF033 0xF0FF (fun w => .ldB (xOf w)) ∧
  (∀ (s : State) (x : Reg), s.mem.wf → InRange s.baseAddress 3 → ∃ t, exec (.ldB x) s = .next t ∧
    (t.mem.get s.baseAddress).toNat = s.v[x].toNat / 100 ∧
    (t.mem.get (s.baseAddress + 1)).toNat = s.v[x].toNat / 10 % 10 ∧
    (t.mem.get (s.baseAddress + 2)).toNat = s.v[x].toNat % 10 ∧
    MemoryUnchangedOutside s.baseAddress 3 s t ∧
    t.pc.toNat = (s.pc.toNat + 2) % 65536 ∧ t = { s with mem := t.mem, pc := t.pc }) ∧
  (∀ (s : State) (x : Reg), ¬ InRange s.baseAddress 3 →
    exec (.ldB x) s = .next { s with fault := some (.memOutOfRange s.pc (max s.baseAddress 0x1000) .write) })

/-- 43_index_and_memory.md R194: `LD [I],Vx` stores `V0` to `Vx` from `I`, or faults whole. -/
def Obligations.DumpStoresFirstRegisters : Prop :=
  EncodedAs 0xF055 0xF0FF (fun w => .storeRegs (xOf w)) ∧
  (∀ (s : State) (x : Reg), s.mem.wf → InRange s.baseAddress (x.val + 1) →
    ∃ t, exec (.storeRegs x) s = .next t ∧
      (∀ r : Reg, r.val ≤ x.val → t.mem.get (s.baseAddress + r.val) = s.v[r]) ∧
      MemoryUnchangedOutside s.baseAddress (x.val + 1) s t ∧
      t.pc.toNat = (s.pc.toNat + 2) % 65536 ∧ t = { s with mem := t.mem, pc := t.pc }) ∧
  (∀ (s : State) (x : Reg), ¬ InRange s.baseAddress (x.val + 1) →
    exec (.storeRegs x) s = .next { s with fault := some (.memOutOfRange s.pc (max s.baseAddress 0x1000) .write) })

/-- 43_index_and_memory.md R195: `LD Vx,[I]` loads `V0` to `Vx` from `I`, or faults whole. -/
def Obligations.LoadReadsFirstRegisters : Prop :=
  EncodedAs 0xF065 0xF0FF (fun w => .loadRegs (xOf w)) ∧
  (∀ (s : State) (x : Reg), InRange s.baseAddress (x.val + 1) → ∃ t, exec (.loadRegs x) s = .next t ∧
    (∀ r : Reg, r.val ≤ x.val → t.v[r] = s.mem.get (s.baseAddress + r.val)) ∧
    (∀ r : Reg, x.val < r.val → t.v[r] = s.v[r]) ∧
    t.pc.toNat = (s.pc.toNat + 2) % 65536 ∧ OnlyRegistersAndPc s t) ∧
  (∀ (s : State) (x : Reg), ¬ InRange s.baseAddress (x.val + 1) →
    exec (.loadRegs x) s = .next { s with fault := some (.memOutOfRange s.pc (max s.baseAddress 0x1000) .read) })

/-- 43_index_and_memory.md section 2: what a dump stored, a load of the same registers brings back, whatever the
registers held in between. -/
def Obligations.LoadAfterDumpRestores : Prop :=
  ∀ (s t : State) (x : Reg) (between : Registers), s.mem.wf → s.fault = none →
    exec (.storeRegs x) s = .next t → t.fault = none →
    ∃ u, exec (.loadRegs x) { t with v := between } = .next u ∧ u.fault = none ∧
      ∀ r : Reg, u.v[r] = if r.val ≤ x.val then s.v[r] else between[r]

/-- 20_memory.md section 6: code that a dump stored is what the next fetch at its address runs, with no fence. -/
def Obligations.StoredCodeIsFetched : Prop :=
  ∀ (s t : State) (x r r' : Reg), s.mem.wf → s.fault = none → s.kw = .notWaiting →
    exec (.storeRegs x) s = .next t → t.fault = none → r'.val = r.val + 1 → r'.val ≤ x.val →
    ∀ u : State, u = { t with pc := BitVec.ofNat 16 (s.baseAddress + r.val) } →
      step u = exec (decode (bigEndian s.v[r] s.v[r'])) u

/-- 20_memory.md section 4: no instruction changes a byte outside the run it stores, and only two have such a run. -/
def Obligations.MemoryChangesOnlyInTheStoredRun : Prop :=
  ∀ (i : Instr) (s t : State) (b : Nat), s.mem.wf → exec i s = .next t →
    (∀ a n, storedRun i s = some (a, n) → b < a ∨ a + n ≤ b) → t.mem.get b = s.mem.get b

/-- 00_scope.md section 4 and 10_state.md: the writers of `I`, of the stack, of the framebuffer and of the key-wait
latch are those the spec lists, and no instruction writes the keypad. -/
def Obligations.StateChangesOnlyByItsWriters : Prop :=
  ∀ (i : Instr) (s t : State), exec i s = .next t →
    ((∀ nnn, i ≠ .ldI nnn) → (∀ x, i ≠ .addI x) → (∀ x, i ≠ .ldF x) → t.i = s.i) ∧
    ((∀ nnn, i ≠ .call nnn) → t.stack = s.stack ∧ (i ≠ .ret → t.sp = s.sp)) ∧
    (i ≠ .cls → (∀ x y n, i ≠ .drw x y n) → t.fb = s.fb) ∧
    ((∀ x, i ≠ .ldDtVx x) → t.dt = s.dt) ∧ ((∀ x, i ≠ .ldStVx x) → t.st = s.st) ∧
    ((∀ x, i ≠ .ldVxK x) → t.kw = s.kw ∧ t.pk = s.pk) ∧ t.k = s.k

/-! ## Display -/

/-- 44_display.md R210: `CLS` turns every cell off, whatever was shown. -/
def Obligations.ClsTurnsEveryCellOff : Prop :=
  EncodedAs 0x00E0 0xFFFF (fun _ => .cls) ∧
  ∀ s : State, ∃ t, exec .cls s = .next t ∧ (∀ px py, t.display px py = false) ∧
    t.pc.toNat = (s.pc.toNat + 2) % 65536 ∧ MemoryUnchanged s t ∧ t = { s with fb := t.fb, pc := t.pc }

/-- 44_display.md R211, R212: `DRW` toggles exactly the pixels that a set bit of the sprite lands on, wrapped on both
axes, and `VF` says whether one of them was on; with `n = 0` it draws nothing and clears `VF`; or it faults whole. -/
def Obligations.DrawTogglesTheSprite : Prop :=
  EncodedAs 0xD000 0xF000 (fun w => .drw (xOf w) (yOf w) (nOf w)) ∧
  (∀ (s : State) (x y : Reg) (n : Fin 16), InRange s.baseAddress n.val → ∃ t, exec (.drw x y n) s = .next t ∧
    (∀ px py, SpriteBitAt s x y n px py → t.display px py = !s.display px py) ∧
    (∀ px py, ¬ SpriteBitAt s x y n px py → t.display px py = s.display px py) ∧
    ((∃ px py, SpriteBitAt s x y n px py ∧ s.display px py = true) → t.v[vf] = 1) ∧
    ((∀ px py, SpriteBitAt s x y n px py → s.display px py = false) → t.v[vf] = 0) ∧
    RegistersUnchangedBut vf s t ∧ t.pc.toNat = (s.pc.toNat + 2) % 65536 ∧
    MemoryUnchanged s t ∧ t = { s with fb := t.fb, v := t.v, pc := t.pc }) ∧
  (∀ (s : State) (x y : Reg) (n : Fin 16), ¬ InRange s.baseAddress n.val →
    exec (.drw x y n) s = .next { s with fault := some (.memOutOfRange s.pc (max s.baseAddress 0x1000) .read) })

/-- 44_display.md R213: the same sprite drawn twice at the same place restores the framebuffer exactly. The registers
are put back between the draws, so that the place is the same when `x` or `y` is 15. -/
def Obligations.DrawTwiceRestoresTheFramebuffer : Prop :=
  ∀ (s t : State) (x y : Reg) (n : Fin 16), InRange s.baseAddress n.val → exec (.drw x y n) s = .next t →
    ∃ u, exec (.drw x y n) { t with v := s.v } = .next u ∧ u.fb = s.fb

/-! ## Timers and keypad -/

/-- 45_timers_and_keypad.md R230, R231, R232: the three timer instructions. -/
def Obligations.TimerInstructionsMoveTimers : Prop :=
  EncodedAs 0xF007 0xF0FF (fun w => .ldVxDt (xOf w)) ∧
  EncodedAs 0xF015 0xF0FF (fun w => .ldDtVx (xOf w)) ∧
  EncodedAs 0xF018 0xF0FF (fun w => .ldStVx (xOf w)) ∧
  ∀ (s : State) (x : Reg),
    (∃ t, exec (.ldVxDt x) s = .next t ∧ t.v[x] = s.dt ∧ t.pc.toNat = (s.pc.toNat + 2) % 65536 ∧
      RegistersUnchangedBut x s t ∧ OnlyRegistersAndPc s t) ∧
    (∃ t, exec (.ldDtVx x) s = .next t ∧ t.dt = s.v[x] ∧ t.pc.toNat = (s.pc.toNat + 2) % 65536 ∧
      MemoryUnchanged s t ∧ t = { s with dt := t.dt, pc := t.pc }) ∧
    (∃ t, exec (.ldStVx x) s = .next t ∧ t.st = s.v[x] ∧ t.pc.toNat = (s.pc.toNat + 2) % 65536 ∧
      MemoryUnchanged s t ∧ t = { s with st := t.st, pc := t.pc })

/-- 45_timers_and_keypad.md R233: `LD Vx,K` enters the wait and remembers the keys that are down; `pc` stays. -/
def Obligations.WaitForKeyEntersTheWait : Prop :=
  EncodedAs 0xF00A 0xF0FF (fun w => .ldVxK (xOf w)) ∧
  ∀ (s : State) (x : Reg), ∃ t, exec (.ldVxK x) s = .next t ∧ t.kw = .waiting x ∧
    (∀ key : Reg, t.pk[key] = s.k[key]) ∧ t.pc = s.pc ∧ MemoryUnchanged s t ∧
    t = { s with kw := t.kw, pk := t.pk }

/-- 45_timers_and_keypad.md R234: a step in the wait resolves to the lowest key newly down, or goes on waiting; it
fetches nothing and leaves `pc`. -/
def Obligations.WaitResolvesToLowestNewKey : Prop :=
  ∀ (s : State) (r : Reg), s.fault = none → s.kw = .waiting r →
    (∀ key : Reg, NewlyDown s key → (∀ lower : Reg, lower < key → ¬ NewlyDown s lower) →
      ∃ t, step s = .next t ∧ t.v[r].toNat = key.val ∧ t.kw = .resolved ∧ t.pk = s.k ∧ t.pc = s.pc ∧
        RegistersUnchangedBut r s t ∧ MemoryUnchanged s t ∧ t = { s with v := t.v, kw := t.kw, pk := t.pk }) ∧
    ((∀ key, ¬ NewlyDown s key) → step s = .next { s with pk := s.k })

/-- 45_timers_and_keypad.md R235: the step after resolution moves past the instruction and ends the wait. -/
def Obligations.ResolvedWaitCompletes : Prop :=
  ∀ s : State, s.fault = none → s.kw = .resolved →
    ∃ t, step s = .next t ∧ t.pc.toNat = (s.pc.toNat + 2) % 65536 ∧ t.kw = .notWaiting ∧
      MemoryUnchanged s t ∧ t = { s with pc := t.pc, kw := t.kw }

/-- 45_timers_and_keypad.md R240: the key-wait state machine; only `Step` and `Reset` move it. -/
def Obligations.KeyWaitMovesAsTheTable : Prop :=
  ∀ s : State, s.fault = none →
    (∀ t, step s = .next t →
      (∀ x, s.nextInstr = some (.ldVxK x) → t.kw = .waiting x ∧ t.pk = s.k) ∧
      (s.kw = .notWaiting → (∀ x, s.nextInstr ≠ some (.ldVxK x)) → t.kw = .notWaiting ∧ t.pk = s.pk) ∧
      (∀ r, s.kw = .waiting r → ∀ key : Reg, NewlyDown s key → (∀ lower : Reg, lower < key → ¬ NewlyDown s lower) →
        t.kw = .resolved ∧ t.pk = s.k ∧ t.v[r].toNat = key.val) ∧
      (∀ r, s.kw = .waiting r → (∀ key, ¬ NewlyDown s key) → t.kw = .waiting r ∧ t.pk = s.k) ∧
      (s.kw = .resolved → t.kw = .notWaiting ∧ t.pc = s.pc + 2#16)) ∧
    s.tick.1.kw = s.kw ∧ (∀ keys, (s.setKeys keys).kw = s.kw) ∧ (∀ bytes, (s.load bytes).1.kw = s.kw) ∧
    s.resetOperation.kw = .notWaiting

/-- 45_timers_and_keypad.md section 2: while no key goes down a wait never ends, however many steps are taken. -/
def Obligations.WaitWithoutNewKeyNeverEnds : Prop :=
  ∀ (s : State) (r : Reg), s.fault = none → s.kw = .waiting r → (∀ key, ¬ NewlyDown s key) →
    ∀ n, Sys2Proof.core.run (n + 1) s = .next { s with pk := s.k }

/-- 45_timers_and_keypad.md R236: one `Tick`. -/
def Obligations.TickCountsDown : Prop :=
  ∀ s : State,
    (s.fault ≠ none → s.tick = (s, false)) ∧
    (s.fault = none → s.tick.1.dt.toNat = s.dt.toNat - 1 ∧ s.tick.1.st.toNat = s.st.toNat - 1 ∧
      (s.tick.2 = true ↔ s.st.toNat = 1) ∧ MemoryUnchanged s s.tick.1 ∧
      s.tick.1 = { s with dt := s.tick.1.dt, st := s.tick.1.st })

/-- 45_timers_and_keypad.md section 3: from a sound timer at `k`, of any number of ticks the `k`-th buzzes and no
other, and both timers have counted down as far as 0. -/
def Obligations.BuzzerSoundsOnTheLastTick : Prop :=
  ∀ (s : State) (n j : Nat), s.fault = none → j < n →
    (ticks n s).2.getD j false = decide (j + 1 = s.st.toNat) ∧
    (ticks n s).1.st.toNat = s.st.toNat - n ∧ (ticks n s).1.dt.toNat = s.dt.toNat - n

/-- 45_timers_and_keypad.md section 3: no step changes a timer but one that executes the instruction that sets it. -/
def Obligations.StepNeverCountsDown : Prop :=
  ∀ s t : State, step s = .next t →
    ((∀ x, s.nextInstr ≠ some (.ldDtVx x)) → t.dt = s.dt) ∧
    ((∀ x, s.nextInstr ≠ some (.ldStVx x)) → t.st = s.st)

/-- 45_timers_and_keypad.md R239: `SetKeys` writes the keypad and nothing else. -/
def Obligations.SetKeysWritesTheKeypad : Prop :=
  ∀ (s : State) (keys : Keys),
    (s.fault ≠ none → s.setKeys keys = s) ∧
    (s.fault = none → (∀ key : Reg, (s.setKeys keys).k[key] = keys[key]) ∧ MemoryUnchanged s (s.setKeys keys) ∧
      s.setKeys keys = { s with k := (s.setKeys keys).k })

/-- 45_timers_and_keypad.md R241: no instruction but wait-for-key learns anything of the keypad: two states that
differ only there come to two states that differ only there. -/
def Obligations.KeypadIsReadOnlyByTheWait : Prop :=
  ∀ (i : Instr) (s t : State) (keys previous : Keys), (∀ x, i ≠ .ldVxK x) → exec i s = .next t →
    exec i { s with k := keys, pk := previous } = .next { t with k := keys, pk := previous }

/-! ## Reset, load and the host's operations -/

/-- 10_state.md R36: every field after `Reset`, from any state. -/
def Obligations.ResetSetsEveryField : Prop :=
  ∀ s : State,
    (∀ a, a < 0x1000 → s.resetOperation.mem.get a =
      if 0x050 ≤ a ∧ a ≤ 0x09F then Config.font.getD (a - 0x050) 0 else 0) ∧
    (∀ r : Reg, s.resetOperation.v[r] = 0) ∧ s.resetOperation.i = 0 ∧ s.resetOperation.pc = 0x200 ∧
    (∀ slot : Fin 16, s.resetOperation.stack[slot] = 0) ∧ s.resetOperation.sp = 0 ∧
    (∀ px py, s.resetOperation.display px py = false) ∧ (∀ key : Reg, s.resetOperation.k[key] = false) ∧
    s.resetOperation.dt = 0 ∧ s.resetOperation.st = 0 ∧ s.resetOperation.kw = .notWaiting ∧
    (∀ key : Reg, s.resetOperation.pk[key] = false) ∧ s.resetOperation.fault = none

/-- 70_reset_and_hazards.md R292: `Load`. -/
def Obligations.LoadCopiesTheProgram : Prop :=
  ∀ (s : State) (bytes : List Byte),
    (s.fault ≠ none → s.load bytes = (s, .ok)) ∧
    (s.fault = none → 3584 < bytes.length → s.load bytes = (s, .tooLarge)) ∧
    (s.fault = none → s.mem.wf → bytes.length ≤ 3584 → (s.load bytes).2 = .ok ∧
      (∀ k, k < bytes.length → (s.load bytes).1.mem.get (0x200 + k) = bytes.getD k 0) ∧
      MemoryUnchangedOutside 0x200 bytes.length s (s.load bytes).1 ∧
      (s.load bytes).1 = { s with mem := (s.load bytes).1.mem })

/-- 70_reset_and_hazards.md section 3: every legal sequence of operations is performed to its end. -/
def Obligations.LegalSequencesAreNeverRefused : Prop :=
  ∀ ops : List Operation, legalSequence ops = true →
    ∃ session results, Session.beforeReset.performAll ops = .next (session, results) ∧ results.length = ops.length

/-- The model's refusals (log 16): an operation before the first `Reset`, and a `Load` after a `Step`, in a faulted
state too (log 18); nothing else. -/
def Obligations.OnlyMeaninglessOperationsAreRefused : Prop :=
  ∀ (session : Session) (op : Operation),
    (session.perform op = .refused .operationBeforeReset ↔ session = .beforeReset ∧ op ≠ .reset) ∧
    (session.perform op = .refused .loadAfterStep ↔ ∃ s bytes, session = .live s true ∧ op = .load bytes) ∧
    (∀ f, session.perform op ≠ .fault f) ∧ (∀ m, session.perform op ≠ .refused (.notModelled m))
end

