-- ==== Sys2Proof/Laws/Decode.lean ====
section
/-! SUPPORT. The fields of a word put together under each format, a word put together from its fields, and the fields
of a word that a mask fixes. -/

namespace Sys2Proof

variable (op n : BitVec 4) (x y : Reg) (nn : Byte) (nnn : Address) (w : Word)

/-! Fields of formats -/

@[simp] theorem fieldOp_formatA : fieldOp (formatA op nnn) = op := by
  apply BitVec.eq_of_getLsbD_eq
  intro i hi
  simp only [fieldOp, formatA, BitVec.getLsbD_extractLsb', BitVec.getLsbD_append]
  simp [hi]

@[simp] theorem fieldNNN_formatA : fieldNNN (formatA op nnn) = nnn := by
  apply BitVec.eq_of_getLsbD_eq
  intro i hi
  simp only [fieldNNN, formatA, BitVec.getLsbD_extractLsb', BitVec.getLsbD_append]
  simp [hi]

@[simp] theorem fieldOp_formatXI : fieldOp (formatXI op x nn) = op := by
  apply BitVec.eq_of_getLsbD_eq
  intro i hi
  simp only [fieldOp, formatXI, BitVec.getLsbD_extractLsb', BitVec.getLsbD_append]
  simp [hi, show ¬ 12 + i < 8 by omega, show ¬ 12 + i - 8 < 4 by omega, show 12 + i - 8 - 4 = i by omega]

@[simp] theorem fieldX_formatXI : fieldX (formatXI op x nn) = x := by
  have : (formatXI op x nn).extractLsb' 8 4 = regBits x := by
    apply BitVec.eq_of_getLsbD_eq
    intro i hi
    simp only [formatXI, BitVec.getLsbD_extractLsb', BitVec.getLsbD_append]
    simp [hi]
  rw [fieldX, this]
  rfl

@[simp] theorem fieldNN_formatXI : fieldNN (formatXI op x nn) = nn := by
  apply BitVec.eq_of_getLsbD_eq
  intro i hi
  simp only [fieldNN, formatXI, BitVec.getLsbD_extractLsb', BitVec.getLsbD_append]
  simp [hi]

@[simp] theorem fieldOp_formatXYN : fieldOp (formatXYN op x y n) = op := by
  apply BitVec.eq_of_getLsbD_eq
  intro i hi
  simp only [fieldOp, formatXYN, BitVec.getLsbD_extractLsb', BitVec.getLsbD_append]
  simp [hi, show ¬ 12 + i < 4 by omega, show ¬ 12 + i - 4 < 4 by omega, show ¬ 12 + i - 4 - 4 < 4 by omega,
    show 12 + i - 4 - 4 - 4 = i by omega]

@[simp] theorem fieldX_formatXYN : fieldX (formatXYN op x y n) = x := by
  have : (formatXYN op x y n).extractLsb' 8 4 = regBits x := by
    apply BitVec.eq_of_getLsbD_eq
    intro i hi
    simp only [formatXYN, BitVec.getLsbD_extractLsb', BitVec.getLsbD_append]
    simp [hi, show ¬ 8 + i < 4 by omega, show ¬ 8 + i - 4 < 4 by omega, show 8 + i - 4 - 4 = i by omega]
  rw [fieldX, this]
  rfl

@[simp] theorem fieldY_formatXYN : fieldY (formatXYN op x y n) = y := by
  have : (formatXYN op x y n).extractLsb' 4 4 = regBits y := by
    apply BitVec.eq_of_getLsbD_eq
    intro i hi
    simp only [formatXYN, BitVec.getLsbD_extractLsb', BitVec.getLsbD_append]
    simp [hi]
  rw [fieldY, this]
  rfl

@[simp] theorem fieldN_formatXYN : fieldN (formatXYN op x y n) = n := by
  apply BitVec.eq_of_getLsbD_eq
  intro i hi
  simp only [fieldN, formatXYN, BitVec.getLsbD_extractLsb', BitVec.getLsbD_append]
  simp [hi]

/-! A word from its fields -/

@[simp] theorem regBits_fieldX : regBits (fieldX w) = w.extractLsb' 8 4 := rfl

@[simp] theorem regBits_fieldY : regBits (fieldY w) = w.extractLsb' 4 4 := rfl

theorem formatA_fields : formatA (fieldOp w) (fieldNNN w) = w := by
  apply BitVec.eq_of_getLsbD_eq
  intro i hi
  simp only [formatA, fieldOp, fieldNNN, BitVec.getLsbD_append, BitVec.getLsbD_extractLsb']
  split
  · simp [*]
  · rw [decide_eq_true (by omega : i - 12 < 4), Bool.true_and]
    congr 1
    omega

theorem formatXI_fields : formatXI (fieldOp w) (fieldX w) (fieldNN w) = w := by
  apply BitVec.eq_of_getLsbD_eq
  intro i hi
  simp only [formatXI, regBits_fieldX, fieldOp, fieldNN, BitVec.getLsbD_append, BitVec.getLsbD_extractLsb']
  split
  · simp [*]
  · split
    · rw [decide_eq_true ‹i - 8 < 4›, Bool.true_and]
      congr 1
      omega
    · rw [decide_eq_true (by omega : i - 8 - 4 < 4), Bool.true_and]
      congr 1
      omega

theorem formatXYN_fields : formatXYN (fieldOp w) (fieldX w) (fieldY w) (fieldN w) = w := by
  apply BitVec.eq_of_getLsbD_eq
  intro i hi
  simp only [formatXYN, regBits_fieldX, regBits_fieldY, fieldOp, fieldN, BitVec.getLsbD_append,
    BitVec.getLsbD_extractLsb']
  split
  · simp [*]
  · split
    · rw [decide_eq_true ‹i - 4 < 4›, Bool.true_and]
      congr 1
      omega
    · split
      · rw [decide_eq_true ‹i - 4 - 4 < 4›, Bool.true_and]
        congr 1
        omega
      · rw [decide_eq_true (by omega : i - 4 - 4 - 4 < 4), Bool.true_and]
        congr 1
        omega

/-! Fields as numbers -/

theorem fieldOp_toNat : (fieldOp w).toNat = w.toNat / 2 ^ 12 := by
  have := w.isLt
  simp only [fieldOp, BitVec.extractLsb'_toNat, Nat.shiftRight_eq_div_pow]
  omega

theorem fieldX_val : (fieldX w).val = w.toNat / 2 ^ 8 % 16 := by
  simp [fieldX, Nat.shiftRight_eq_div_pow]

theorem fieldY_val : (fieldY w).val = w.toNat / 2 ^ 4 % 16 := by
  simp [fieldY, Nat.shiftRight_eq_div_pow]

theorem fieldN_toNat : (fieldN w).toNat = w.toNat % 16 := by simp [fieldN]

theorem fieldNN_toNat : (fieldNN w).toNat = w.toNat % 256 := by simp [fieldNN]

theorem fieldNNN_toNat : (fieldNNN w).toNat = w.toNat % 4096 := by simp [fieldNNN]

/-! Fields that a mask fixes (30_encoding.md R94) -/

variable {w} {value mask : Word}

theorem fieldOp_of_mask (h : w &&& mask = value) (m : mask.extractLsb' 12 4 = 0xF#4) :
    fieldOp w = value.extractLsb' 12 4 := by
  rw [← h, BitVec.extractLsb'_and, m, fieldOp]
  exact (BitVec.and_allOnes (x := w.extractLsb' 12 4)).symm

theorem fieldN_of_mask (h : w &&& mask = value) (m : mask.extractLsb' 0 4 = 0xF#4) :
    fieldN w = value.extractLsb' 0 4 := by
  rw [← h, BitVec.extractLsb'_and, m, fieldN]
  exact (BitVec.and_allOnes (x := w.extractLsb' 0 4)).symm

theorem fieldNN_of_mask (h : w &&& mask = value) (m : mask.extractLsb' 0 8 = 0xFF#8) :
    fieldNN w = value.extractLsb' 0 8 := by
  rw [← h, BitVec.extractLsb'_and, m, fieldNN]
  exact (BitVec.and_allOnes (x := w.extractLsb' 0 8)).symm

/-- The word that a number of the opcode table stands for, laid out as bytes, is the word the decoder reads. -/
theorem wordOfBytes_bytesOfWord (w : Word) : wordOfBytes (bytesOfWord w).1 (bytesOfWord w).2 = w := by
  apply BitVec.eq_of_getLsbD_eq
  intro i hi
  simp only [wordOfBytes, bytesOfWord, BitVec.getLsbD_append, BitVec.getLsbD_extractLsb']
  split
  · simp_all
  · rw [decide_eq_true (by omega : i - 8 < 8), Bool.true_and]
    congr 1
    omega

/-- `decodeTableWord` always answers, with the decoding of the table's word. -/
theorem decodeTableWord_eq (nbits v : Nat) : decodeTableWord nbits v = some (decode (tableWord nbits v)) := by
  simp only [decodeTableWord, decodeBytes, wordOfBytes_bytesOfWord]

end Sys2Proof
end

