-- ==== Sys2Proof/Laws/Memory.lean ====
section
/-! SUPPORT. The laws of memory: read after write, the canonical form kept by every operation, and that two memories
in canonical form that read alike are equal. -/

namespace Sys2Proof.Machine

theorem Memory.get_listed (m : Memory) (a c : Nat) (b : Byte) (h : m.get a = unlistedByte a) :
    (Memory.listed a b m).get c = if c = a then b else m.get c := by
  unfold Memory.listed
  split
  · split
    · subst_vars; exact h
    · rfl
  · rfl

/-- Every entry lies above a bound. -/
def Memory.above (n : Nat) (m : Memory) : Prop := ∀ c ∈ m, n < c.1

theorem Memory.get_of_above {m : Memory} {a n : Nat} (h : Memory.above n m) (ha : a ≤ n) :
    m.get a = unlistedByte a := by
  induction m with
  | nil => rfl
  | cons c m ih =>
    have hc := h c (by simp)
    have : a ≠ c.1 := by omega
    simp only [Memory.get, this, if_false]
    exact ih fun d hd => h d (by simp [hd])

theorem Memory.wf_cons {c : Host.Cell} {m : Memory} :
    Memory.wf (c :: m) ↔ Memory.above c.1 m ∧ (c.1 < 4096 ∧ c.2 ≠ unlistedByte c.1) ∧ Memory.wf m := by
  simp only [Memory.wf, List.pairwise_cons, List.mem_cons, forall_eq_or_imp, Memory.above]
  tauto

/-- A read after a write, in a memory in canonical form: the byte written there, and every other byte as it was. -/
theorem Memory.get_set {m : Memory} (hm : m.wf) (a c : Nat) (b : Byte) :
    (m.set a b).get c = if c = a then b else m.get c := by
  induction m with
  | nil => exact Memory.get_listed [] a c b rfl
  | cons d m ih =>
    obtain ⟨above, -, hm'⟩ := Memory.wf_cons.1 hm
    simp only [Memory.set]
    split
    · rename_i lt
      refine Memory.get_listed _ a c b (Memory.get_of_above (n := a) ?_ (le_refl a))
      intro e he
      rcases List.mem_cons.1 he with rfl | he
      · exact lt
      · exact lt.trans (above e he)
    · split
      · rename_i eq
        subst eq
        rw [Memory.get_listed m d.1 c b (Memory.get_of_above above (le_refl _))]
        simp only [Memory.get]
        split <;> simp_all
      · simp only [Memory.get, ih hm']
        split <;> split <;> simp_all

theorem Memory.above_listed {m : Memory} {n a : Nat} {b : Byte} (h : Memory.above n m) (ha : n < a) :
    Memory.above n (Memory.listed a b m) := by
  unfold Memory.listed
  split
  · exact h
  · intro c hc
    rcases List.mem_cons.1 hc with rfl | hc
    · exact ha
    · exact h c hc

theorem Memory.above_set {m : Memory} {n a : Nat} {b : Byte} (h : Memory.above n m) (ha : n < a) :
    Memory.above n (m.set a b) := by
  induction m with
  | nil => exact Memory.above_listed h ha
  | cons d m ih =>
    have hm : Memory.above n m := fun c hc => h c (by simp [hc])
    simp only [Memory.set]
    split
    · exact Memory.above_listed h ha
    · split
      · exact Memory.above_listed hm ha
      · intro c hc
        rcases List.mem_cons.1 hc with rfl | hc
        · exact h _ (by simp)
        · exact ih hm c hc

theorem Memory.wf_listed {m : Memory} {a : Nat} {b : Byte} (hm : m.wf) (above : Memory.above a m) (ha : a < 4096) :
    (Memory.listed a b m).wf := by
  unfold Memory.listed
  split
  · exact hm
  · exact Memory.wf_cons.2 ⟨above, ⟨ha, by assumption⟩, hm⟩

/-- A write to a valid address keeps the canonical form. -/
theorem Memory.wf_set {m : Memory} (hm : m.wf) {a : Nat} (ha : a < 4096) (b : Byte) : (m.set a b).wf := by
  induction m with
  | nil => exact Memory.wf_listed hm (fun c hc => by simp at hc) ha
  | cons d m ih =>
    obtain ⟨above, hd, hm'⟩ := Memory.wf_cons.1 hm
    simp only [Memory.set]
    split
    · rename_i lt
      refine Memory.wf_listed hm ?_ ha
      intro e he
      rcases List.mem_cons.1 he with rfl | he
      · exact lt
      · exact lt.trans (above e he)
    · split
      · rename_i eq
        subst eq
        exact Memory.wf_listed hm' above ha
      · exact Memory.wf_cons.2 ⟨Memory.above_set above (by omega), hd, ih hm'⟩

/-- A run of writes to valid addresses keeps the canonical form. -/
theorem Memory.wf_setRun {m : Memory} (hm : m.wf) {a : Nat} {bs : List Byte} (ha : a + bs.length ≤ 4096) :
    (m.setRun a bs).wf := by
  induction bs generalizing m a with
  | nil => exact hm
  | cons b bs ih =>
    rw [List.length_cons] at ha
    exact ih (Memory.wf_set hm (by omega) b) (by omega)

/-- A read after a run of writes: the run's byte inside it, and every byte outside it as it was. -/
theorem Memory.get_setRun {m : Memory} (hm : m.wf) {a : Nat} {bs : List Byte} (ha : a + bs.length ≤ 4096) (c : Nat) :
    (m.setRun a bs).get c = if a ≤ c ∧ c < a + bs.length then bs.getD (c - a) 0 else m.get c := by
  induction bs generalizing m a with
  | nil => simp [Memory.setRun]
  | cons b bs ih =>
    rw [List.length_cons] at ha ⊢
    rw [Memory.setRun, ih (Memory.wf_set hm (by omega) b) (by omega), Memory.get_set hm]
    rcases Nat.lt_trichotomy c a with lt | rfl | gt
    · rw [if_neg (by omega), if_neg (by omega), if_neg (by omega)]
    · rw [if_neg (by omega), if_pos rfl, if_pos (by omega)]
      simp
    · obtain ⟨k, rfl⟩ : ∃ k, c = a + 1 + k := ⟨c - (a + 1), by omega⟩
      rw [if_neg (by omega : ¬ a + 1 + k = a), show a + 1 + k - a = k + 1 by omega,
        show a + 1 + k - (a + 1) = k by omega]
      simp only [List.getD_cons_succ]
      congr 1
      apply propext
      omega

/-- Two memories in canonical form that read alike are equal. -/
theorem Memory.ext_get {m n : Memory} (hm : m.wf) (hn : n.wf) (h : ∀ a, m.get a = n.get a) : m = n := by
  induction m generalizing n with
  | nil =>
    cases n with
    | nil => rfl
    | cons d n =>
      obtain ⟨-, ⟨-, listed⟩, -⟩ := Memory.wf_cons.1 hn
      exact absurd (by simpa [Memory.get] using (h d.1).symm) listed
  | cons c m ih =>
    obtain ⟨cAbove, ⟨-, cListed⟩, hm'⟩ := Memory.wf_cons.1 hm
    cases n with
    | nil => exact absurd (by simpa [Memory.get] using h c.1) cListed
    | cons d n =>
      obtain ⟨dAbove, ⟨-, dListed⟩, hn'⟩ := Memory.wf_cons.1 hn
      have hcd : c.1 = d.1 := by
        rcases Nat.lt_trichotomy c.1 d.1 with lt | eq | gt
        · have := h c.1
          simp only [Memory.get, if_true, if_neg (Nat.ne_of_lt lt)] at this
          exact absurd (this.trans (Memory.get_of_above dAbove (Nat.le_of_lt lt))) cListed
        · exact eq
        · have := h d.1
          simp only [Memory.get, if_true, if_neg (Nat.ne_of_lt gt)] at this
          exact absurd (this.symm.trans (Memory.get_of_above cAbove (Nat.le_of_lt gt))) dListed
      have hbytes : c.2 = d.2 := by simpa [Memory.get, hcd] using h c.1
      have hrest : m = n := by
        refine ih hm' hn' fun a => ?_
        have ha := h a
        simp only [Memory.get, hcd] at ha
        by_cases e : a = d.1
        · subst e
          rw [Memory.get_of_above cAbove (le_of_eq hcd.symm), Memory.get_of_above dAbove (le_refl _)]
        · simpa [e] using ha
      rw [hrest, Prod.ext hcd hbytes]

/-- Reset memory is in canonical form. -/
theorem reset_memory_wf : State.reset.mem.wf := by decide

end Sys2Proof.Machine
end

