-- ==== Sys2Proof/Laws/State.lean ====
section
/-! SUPPORT. What each shared update of a state changes: one lemma per field per update, so that no proof unfolds a
record update. -/

namespace Sys2Proof.Machine

variable (s : State) (x : Reg) (b : Byte) (t : Word) (f : Fault) (flag c : Bool)

/-! `V[x] <- b` -/

@[simp] theorem State.writeV_mem : (s.writeV x b).mem = s.mem := rfl
@[simp] theorem State.writeV_v : (s.writeV x b).v = s.v.set x b := rfl
@[simp] theorem State.writeV_i : (s.writeV x b).i = s.i := rfl
@[simp] theorem State.writeV_pc : (s.writeV x b).pc = s.pc := rfl
@[simp] theorem State.writeV_stack : (s.writeV x b).stack = s.stack := rfl
@[simp] theorem State.writeV_sp : (s.writeV x b).sp = s.sp := rfl
@[simp] theorem State.writeV_fb : (s.writeV x b).fb = s.fb := rfl
@[simp] theorem State.writeV_k : (s.writeV x b).k = s.k := rfl
@[simp] theorem State.writeV_dt : (s.writeV x b).dt = s.dt := rfl
@[simp] theorem State.writeV_st : (s.writeV x b).st = s.st := rfl
@[simp] theorem State.writeV_kw : (s.writeV x b).kw = s.kw := rfl
@[simp] theorem State.writeV_pk : (s.writeV x b).pk = s.pk := rfl
@[simp] theorem State.writeV_fault : (s.writeV x b).fault = s.fault := rfl

/-- A read after a write to the same register. -/
@[simp] theorem State.readV_writeV_same : (s.writeV x b).readV x = b := by
  simp [State.readV, State.writeV]

/-- A read after a write to another register. -/
theorem State.readV_writeV_other {r : Reg} (h : r ≠ x) : (s.writeV x b).readV r = s.readV r := by
  have : x.val ≠ r.val := fun e => h (Fin.ext e.symm)
  simp [State.readV, State.writeV, this]

@[simp] theorem State.readV_eq : s.readV x = s.v[x] := rfl

/-! `V[15] <- flag` -/

theorem State.writeFlag_eq : s.writeFlag flag = s.writeV vf (flagByte flag) := rfl

@[simp] theorem State.writeFlag_mem : (s.writeFlag flag).mem = s.mem := rfl
@[simp] theorem State.writeFlag_v : (s.writeFlag flag).v = s.v.set vf.val (flagByte flag) := rfl
@[simp] theorem State.writeFlag_i : (s.writeFlag flag).i = s.i := rfl
@[simp] theorem State.writeFlag_pc : (s.writeFlag flag).pc = s.pc := rfl
@[simp] theorem State.writeFlag_stack : (s.writeFlag flag).stack = s.stack := rfl
@[simp] theorem State.writeFlag_sp : (s.writeFlag flag).sp = s.sp := rfl
@[simp] theorem State.writeFlag_fb : (s.writeFlag flag).fb = s.fb := rfl
@[simp] theorem State.writeFlag_k : (s.writeFlag flag).k = s.k := rfl
@[simp] theorem State.writeFlag_dt : (s.writeFlag flag).dt = s.dt := rfl
@[simp] theorem State.writeFlag_st : (s.writeFlag flag).st = s.st := rfl
@[simp] theorem State.writeFlag_kw : (s.writeFlag flag).kw = s.kw := rfl
@[simp] theorem State.writeFlag_pk : (s.writeFlag flag).pk = s.pk := rfl
@[simp] theorem State.writeFlag_fault : (s.writeFlag flag).fault = s.fault := rfl

/-! `pc <- target`; `advance` is the jump to `pc + 2` -/

@[simp] theorem State.advance_eq : s.advance = s.jump (s.pc + 2#16) := rfl

@[simp] theorem State.jump_mem : (s.jump t).mem = s.mem := rfl
@[simp] theorem State.jump_v : (s.jump t).v = s.v := rfl
@[simp] theorem State.jump_i : (s.jump t).i = s.i := rfl
@[simp] theorem State.jump_pc : (s.jump t).pc = t := rfl
@[simp] theorem State.jump_stack : (s.jump t).stack = s.stack := rfl
@[simp] theorem State.jump_sp : (s.jump t).sp = s.sp := rfl
@[simp] theorem State.jump_fb : (s.jump t).fb = s.fb := rfl
@[simp] theorem State.jump_k : (s.jump t).k = s.k := rfl
@[simp] theorem State.jump_dt : (s.jump t).dt = s.dt := rfl
@[simp] theorem State.jump_st : (s.jump t).st = s.st := rfl
@[simp] theorem State.jump_kw : (s.jump t).kw = s.kw := rfl
@[simp] theorem State.jump_pk : (s.jump t).pk = s.pk := rfl
@[simp] theorem State.jump_fault : (s.jump t).fault = s.fault := rfl

/-- A skip is a jump, whichever way it goes. -/
theorem State.skipWhen_eq : s.skipWhen c = s.jump (if c then s.pc + 4#16 else s.pc + 2#16) := by
  cases c <;> rfl

/-! `fault <- (F, info)` -/

@[simp] theorem State.raise_mem : (s.raise f).mem = s.mem := rfl
@[simp] theorem State.raise_v : (s.raise f).v = s.v := rfl
@[simp] theorem State.raise_i : (s.raise f).i = s.i := rfl
@[simp] theorem State.raise_pc : (s.raise f).pc = s.pc := rfl
@[simp] theorem State.raise_stack : (s.raise f).stack = s.stack := rfl
@[simp] theorem State.raise_sp : (s.raise f).sp = s.sp := rfl
@[simp] theorem State.raise_fb : (s.raise f).fb = s.fb := rfl
@[simp] theorem State.raise_k : (s.raise f).k = s.k := rfl
@[simp] theorem State.raise_dt : (s.raise f).dt = s.dt := rfl
@[simp] theorem State.raise_st : (s.raise f).st = s.st := rfl
@[simp] theorem State.raise_kw : (s.raise f).kw = s.kw := rfl
@[simp] theorem State.raise_pk : (s.raise f).pk = s.pk := rfl
@[simp] theorem State.raise_fault : (s.raise f).fault = some f := rfl

/-- `raise` changes nothing but the latch (60_exceptions.md R261). -/
theorem State.raise_eq : s.raise f = { s with fault := some f } := rfl

end Sys2Proof.Machine
end

