-- ==== Sys2Proof/Laws/Ops.lean ====
section
/-! SUPPORT. Once for each shared operation, everything it can do: the range check, the runs of reads and writes, the
call stack, taking a fault, fetch, and the block moves of registers. -/

namespace Sys2Proof.Machine

variable (s : State) (pc : Word) (kind : AccessKind) (m : Memory) (a n : Nat)

/-! Taking a fault -/

@[simp] theorem commit_ok (t : State) : commit s (.ok t) = .next t := rfl

@[simp] theorem commit_error (f : Fault) : commit s (.error f) = .next (s.raise f) := rfl

/-- `commit` answers a next state: what the instruction left, or the state before it with the latch set. -/
theorem commit_cases {s t : State} {r : Except Fault State} (h : commit s r = .next t) :
    r = .ok t ∨ ∃ f, r = .error f ∧ t = s.raise f := by
  cases r with
  | ok u => exact .inl (by simpa using h)
  | error f => exact .inr ⟨f, rfl, by simpa using h.symm⟩

/-! The range check -/

theorem lowestInvalid_none : lowestInvalid a n = none ↔ n = 0 ∨ a + n ≤ 0x1000 := by
  unfold lowestInvalid
  split <;> simp <;> omega

theorem checkRange_ok (h : lowestInvalid a n = none) : checkRange pc kind a n = .ok () := by
  rw [lowestInvalid_none] at h
  rw [checkRange, if_neg (by simp only [Config.addrMax]; omega)]

theorem checkRange_error {addr : Nat} (h : lowestInvalid a n = some addr) :
    checkRange pc kind a n = .error (.memOutOfRange pc addr kind) := by
  unfold lowestInvalid at h
  split at h
  · rw [checkRange, if_pos (by simp only [Config.addrMax]; omega)]
    simp only [Option.some.injEq] at h
    simp [Config.addrMax, ← h]
  · simp at h

/-! Runs of reads and writes -/

/-- The bytes of a run, as memory holds them. -/
def runBytes (m : Memory) (a n : Nat) : List Byte := (List.range n).map fun k => m.get (a + k)

@[simp] theorem runBytes_length : (runBytes m a n).length = n := by simp [runBytes]

theorem runBytes_succ : runBytes m a (n + 1) = m.get a :: runBytes m (a + 1) n := by
  simp [runBytes, List.range_succ_eq_map, Function.comp_def, Nat.add_comm, Nat.add_left_comm]

theorem runBytes_getD {k : Nat} (h : k < n) : (runBytes m a n).getD k 0 = m.get (a + k) := by
  simp [runBytes, h]

theorem readBytes_ok (h : n = 0 ∨ a + n ≤ 0x1000) : readBytes pc kind m a n = .ok (runBytes m a n) := by
  induction n generalizing a with
  | zero => rfl
  | succ n ih =>
    rw [runBytes_succ, readBytes, memRead, if_neg (by simp only [Config.addrMax]; omega)]
    simp only [Except.bind, ih (a + 1) (by omega), Except.map]

theorem writeBytes_ok (bs : List Byte) (h : a + bs.length ≤ 0x1000) :
    writeBytes pc m a bs = .ok (m.setRun a bs) := by
  induction bs generalizing m a with
  | nil => rfl
  | cons b bs ih =>
    rw [List.length_cons] at h
    rw [writeBytes, memWrite, if_neg (by simp only [Config.addrMax]; omega)]
    exact ih (m.set a b) (a + 1) (by omega)

/-- A data read whose run lies in memory gives the run's bytes. -/
theorem readRun_ok (h : lowestInvalid a n = none) : readRun s kind a n = .ok (runBytes s.mem a n) := by
  rw [readRun, checkRange_ok _ _ _ _ h]
  exact readBytes_ok _ _ _ _ _ ((lowestInvalid_none a n).1 h)

/-- A data read whose run does not lie in memory raises. -/
theorem readRun_error {addr : Nat} (h : lowestInvalid a n = some addr) :
    readRun s kind a n = .error (.memOutOfRange s.pc addr kind) := by
  rw [readRun, checkRange_error _ _ _ _ h]
  rfl

/-- A data write whose run lies in memory changes memory alone. -/
theorem writeRun_ok {bs : List Byte} (h : lowestInvalid a bs.length = none) :
    writeRun s a bs = .ok { s with mem := s.mem.setRun a bs } := by
  rw [writeRun, checkRange_ok _ _ _ _ h]
  rcases (lowestInvalid_none a bs.length).1 h with e | le
  · rw [List.length_eq_zero_iff.1 e]
    rfl
  · simp [Except.bind, Except.map, writeBytes_ok _ _ _ _ le]

/-- A data write whose run does not lie in memory raises. -/
theorem writeRun_error {bs : List Byte} {addr : Nat} (h : lowestInvalid a bs.length = some addr) :
    writeRun s a bs = .error (.memOutOfRange s.pc addr .write) := by
  rw [writeRun, checkRange_error _ _ _ _ h]
  rfl

/-! The call stack -/

theorem pushPc_ok (h : s.sp.val < 16) :
    pushPc s = .ok { s with stack := s.stack.set s.sp.val s.pc h, sp := ⟨s.sp.val + 1, by omega⟩ } := by
  rw [pushPc, dif_pos h]

theorem pushPc_error (h : s.sp.val = 16) : pushPc s = .error (.stackOverflow s.pc) := by
  rw [pushPc, dif_neg (by omega)]

theorem popAddress_ok (h : 0 < s.sp.val) :
    popAddress s = .ok (s.stack[s.sp.val - 1]'(by omega), { s with sp := ⟨s.sp.val - 1, by omega⟩ }) := by
  rw [popAddress, dif_pos h]

theorem popAddress_error (h : s.sp.val = 0) : popAddress s = .error (.stackUnderflow s.pc) := by
  rw [popAddress, dif_neg (by omega)]

/-! Fetch -/

/-- A fetch at `pc` at most 0xFFE gives the big-endian word of the two bytes there. -/
theorem fetch_ok (h : s.pc.toNat ≤ 0xFFE) :
    fetch s = .ok (wordOfBytes (s.mem.get s.pc.toNat) (s.mem.get (s.pc.toNat + 1))) := by
  have check := checkRange_ok s.pc .fetch s.pc.toNat 2 ((lowestInvalid_none _ _).2 (by omega))
  rw [fetch, check]
  simp only [Except.bind, memRead]
  rw [if_neg (by simp only [Config.addrMax]; omega)]
  simp only []
  rw [if_neg (by simp only [Config.addrMax]; omega)]
  rfl

/-- A fetch at a `pc` above 0xFFE raises, and reports the lowest invalid address. -/
theorem fetch_error (h : 0xFFE < s.pc.toNat) :
    fetch s = .error (.memOutOfRange s.pc (max s.pc.toNat 0x1000) .fetch) := by
  have check := checkRange_error s.pc .fetch s.pc.toNat 2 (addr := max s.pc.toNat 0x1000)
    (by rw [lowestInvalid, if_pos (by omega)])
  rw [fetch, check]
  rfl

/-! Block moves of registers -/

@[simp] theorem firstRegisters_length (v : Registers) (x : Reg) : (firstRegisters v x).length = x.val + 1 := by
  simp [firstRegisters]

theorem firstRegisters_getD (v : Registers) (x r : Reg) (h : r.val ≤ x.val) :
    (firstRegisters v x).getD r.val 0 = v[r] := by
  have : r.val < x.val + 1 := by omega
  simp [firstRegisters, List.getD, this]

/-- The registers that a block of bytes is loaded into, and every other register as it was. -/
theorem loadFirstRegisters_get (v : Registers) (i : Nat) (bs : List Byte) (r : Reg) :
    (loadFirstRegisters v i bs)[r] = if i ≤ r.val ∧ r.val < i + bs.length then bs.getD (r.val - i) 0 else v[r] := by
  induction bs generalizing v i with
  | nil => simp [loadFirstRegisters]
  | cons b bs ih =>
    rw [loadFirstRegisters, ih, List.length_cons]
    rcases Nat.lt_trichotomy r.val i with lt | eq | gt
    · rw [if_neg (by omega), if_neg (by omega)]
      simp [Vector.getElem_setIfInBounds]
      omega
    · rw [if_neg (by omega), if_pos (by omega)]
      simp [eq]
    · have other : (v.setIfInBounds i b)[r] = v[r] := by
        simp [Vector.getElem_setIfInBounds]
        omega
      have tail : (b :: bs).getD (r.val - i) 0 = bs.getD (r.val - (i + 1)) 0 := by
        rw [show r.val - i = r.val - (i + 1) + 1 by omega, List.getD_cons_succ]
      rw [other, tail]
      congr 1
      apply propext
      omega

end Sys2Proof.Machine
end

