-- ==== Sys2Proof/Laws/Display.lean ====
section
/-! SUPPORT. The framebuffer under a toggle, and what drawing a list of cells does to one cell and to the flag. -/

namespace Sys2Proof.Machine

/-- A toggle turns its own cell over and leaves every other cell. -/
theorem Framebuffer.pixel_toggle (fb : Framebuffer) (px qx : Fin 64) (py qy : Fin 32) :
    (fb.toggle px py).pixel qx qy = if qx = px ∧ qy = py then !fb.pixel px py else fb.pixel qx qy := by
  unfold Framebuffer.toggle Framebuffer.pixel
  by_cases hy : qy = py
  · subst hy
    by_cases hx : qx = px
    · subst hx
      simp
    · have : px.val ≠ qx.val := fun e => hx (Fin.ext e.symm)
      simp [hx, this]
  · have : py.val ≠ qy.val := fun e => hy (Fin.ext e.symm)
    simp [hy, this]

/-- Two framebuffers that show the same pixels are equal. -/
theorem Framebuffer.ext_pixel {fb gb : Framebuffer} (h : ∀ px py, fb.pixel px py = gb.pixel px py) : fb = gb := by
  refine Vector.ext fun y hy => Vector.ext fun x hx => ?_
  exact h ⟨x, hx⟩ ⟨y, hy⟩

/-- Drawing cells that are all different turns over exactly those, and collides when one of them was on. -/
theorem foldl_plotCell (cells : List (Fin 64 × Fin 32)) (distinct : cells.Nodup) (fb : Framebuffer) (hit : Bool) :
    (∀ px py, (cells.foldl plotCell (fb, hit)).1.pixel px py = (fb.pixel px py ^^ decide ((px, py) ∈ cells))) ∧
      (cells.foldl plotCell (fb, hit)).2 = (hit || cells.any fun cell => fb.pixel cell.1 cell.2) := by
  induction cells generalizing fb hit with
  | nil => simp
  | cons cell cells ih =>
    obtain ⟨fresh, distinct⟩ := List.nodup_cons.1 distinct
    obtain ⟨pixels, flag⟩ := ih distinct (fb.toggle cell.1 cell.2) (hit || fb.pixel cell.1 cell.2)
    refine ⟨fun px py => ?_, ?_⟩
    · rw [List.foldl_cons, plotCell, pixels, Framebuffer.pixel_toggle]
      by_cases e : (px, py) = cell
      · subst e
        simp [fresh]
      · have : ¬ (px = cell.1 ∧ py = cell.2) := fun h => e (Prod.ext h.1 h.2)
        simp [e, this]
    · rw [List.foldl_cons, plotCell, flag, List.any_cons, Bool.or_assoc]
      congr 2
      rw [Bool.eq_iff_iff, List.any_eq_true, List.any_eq_true]
      refine exists_congr fun other => and_congr_right fun mem => ?_
      have : ¬ (other.1 = cell.1 ∧ other.2 = cell.2) := fun h => fresh (Prod.ext h.1 h.2 ▸ mem)
      rw [Framebuffer.pixel_toggle, if_neg this]

theorem mem_spriteRowCells (x0 y0 r : Nat) (b : Byte) (px : Fin 64) (py : Fin 32) :
    (px, py) ∈ spriteRowCells x0 y0 r b ↔
      ∃ c < 8, spriteBit b c = true ∧ px = Fin.ofNat 64 (x0 + c) ∧ py = Fin.ofNat 32 (y0 + r) := by
  simp only [spriteRowCells, List.mem_map, List.mem_filter, List.mem_range, Prod.mk.injEq]
  constructor
  · rintro ⟨c, ⟨hc, hb⟩, hx, hy⟩
    exact ⟨c, hc, hb, hx.symm, hy.symm⟩
  · rintro ⟨c, hc, hb, hx, hy⟩
    exact ⟨c, ⟨hc, hb⟩, hx.symm, hy.symm⟩

/-- The cells of a sprite are those of its set bits: bit `7 - c` of row `r`, at the start plus `(c, r)`, wrapped. -/
theorem mem_spriteCells (x0 y0 r0 : Nat) (bytes : List Byte) (px : Fin 64) (py : Fin 32) :
    (px, py) ∈ spriteCells x0 y0 r0 bytes ↔
      ∃ r < bytes.length, ∃ c < 8, spriteBit (bytes.getD r 0) c = true ∧
        px = Fin.ofNat 64 (x0 + c) ∧ py = Fin.ofNat 32 (y0 + (r0 + r)) := by
  induction bytes generalizing r0 with
  | nil => simp [spriteCells]
  | cons b bytes ih =>
    rw [spriteCells, List.mem_append, mem_spriteRowCells, ih]
    constructor
    · rintro (⟨c, hc, hb, hx, hy⟩ | ⟨r, hr, c, hc, hb, hx, hy⟩)
      · exact ⟨0, by simp, c, hc, by simpa using hb, hx, hy⟩
      · exact ⟨r + 1, by simpa using hr, c, hc, by simpa using hb, hx, by rw [hy]; congr 1; omega⟩
    · rintro ⟨_ | r, hr, c, hc, hb, hx, hy⟩
      · exact .inl ⟨c, hc, by simpa using hb, hx, hy⟩
      · exact .inr ⟨r, by simpa using hr, c, hc, by simpa using hb, hx, by rw [hy]; congr 1; omega⟩

theorem ofNat_row_inj {y0 r q : Nat} (h : Fin.ofNat 32 (y0 + r) = Fin.ofNat 32 (y0 + q)) (hr : r < 32) (hq : q < 32) :
    r = q := by
  have := congrArg Fin.val h
  simp only [Fin.ofNat] at this
  omega

theorem ofNat_column_inj {x0 c d : Nat} (h : Fin.ofNat 64 (x0 + c) = Fin.ofNat 64 (x0 + d)) (hc : c < 8) (hd : d < 8) :
    c = d := by
  have := congrArg Fin.val h
  simp only [Fin.ofNat] at this
  omega

/-- A sprite of at most 32 rows visits no cell twice (44_display.md R211). -/
theorem spriteCells_nodup (x0 y0 r0 : Nat) (bytes : List Byte) (h : r0 + bytes.length ≤ 32) :
    (spriteCells x0 y0 r0 bytes).Nodup := by
  induction bytes generalizing r0 with
  | nil => simp [spriteCells]
  | cons b bytes ih =>
    rw [List.length_cons] at h
    rw [spriteCells, List.nodup_append]
    refine ⟨?_, ih (r0 + 1) (by omega), ?_⟩
    · refine List.Nodup.map_on ?_ (List.nodup_range.filter _)
      intro c hc d hd e
      simp only [List.mem_filter, List.mem_range] at hc hd
      exact ofNat_column_inj (Prod.ext_iff.1 e).1 hc.1 hd.1
    · rintro ⟨px, py⟩ here _ there rfl
      obtain ⟨c, -, -, -, hy⟩ := (mem_spriteRowCells ..).1 here
      obtain ⟨r, hr, d, -, -, -, hy'⟩ := (mem_spriteCells ..).1 there
      have := ofNat_row_inj (hy.symm.trans hy') (by omega) (by omega)
      omega

/-- What drawing a sprite of at most 32 rows does: the cells of its set bits are turned over, every other cell is as
it was, and the flag says whether one of them was on (44_display.md R211, R213). -/
theorem drawSprite_spec (fb : Framebuffer) (x0 y0 : Nat) (bytes : List Byte) (h : bytes.length ≤ 32) :
    (∀ px py, (drawSprite fb x0 y0 bytes).1.pixel px py =
        (fb.pixel px py ^^ decide ((px, py) ∈ spriteCells x0 y0 0 bytes))) ∧
      (drawSprite fb x0 y0 bytes).2 = (spriteCells x0 y0 0 bytes).any fun cell => fb.pixel cell.1 cell.2 := by
  have := foldl_plotCell _ (spriteCells_nodup x0 y0 0 bytes (by omega)) fb false
  simpa [drawSprite] using this

end Sys2Proof.Machine
end

