-- ==== Sys2Proof/Laws/PerInstr.lean ====
section
/-! SUPPORT. The family of per-instruction lemmas EncodesItsRow: the word of a well-formed instruction carries the
fixed bits of its row of the opcode map (30_encoding.md R94, R95, R97), which is data written apart from the encoder. -/

namespace Sys2Proof.Laws.EncodesItsRow

/-- Where the instruction has a row with fixed bits, its word is one the row covers. -/
def Statement (i : Instr) : Prop :=
  ∀ row ∈ recognizedRows ++ conventionalRows, row.number = i.rowNumber → row.covers (encode i) = true

theorem append_and_append {m k : Nat} (a c : BitVec m) (b d : BitVec k) :
    (a ++ b) &&& (c ++ d) = (a &&& c) ++ (b &&& d) := by
  apply BitVec.eq_of_getLsbD_eq
  intro i _
  simp only [BitVec.getLsbD_and, BitVec.getLsbD_append]
  split <;> rfl

/-- A row whose mask fixes nothing but `op` covers format A with that `op`. -/
theorem formatA_and (op : BitVec 4) (nnn : Address) : formatA op nnn &&& 0xF000 = formatA op 0 := by
  rw [show (0xF000 : Word) = (0xF#4 ++ 0#12 : BitVec (4 + 12)) by decide]
  show (op ++ nnn) &&& (0xF#4 ++ 0#12) = op ++ 0#12
  rw [append_and_append, BitVec.and_zero]
  exact congrArg (fun o : BitVec 4 => o ++ 0#12) BitVec.and_allOnes

theorem formatXI_and_op (op : BitVec 4) (x : Reg) (nn : Byte) :
    formatXI op x nn &&& 0xF000 = formatA op 0 := by
  have : formatXI op x nn = formatA op (fieldNNN (formatXI op x nn)) := by
    conv_lhs => rw [← formatA_fields (formatXI op x nn)]
    rw [fieldOp_formatXI]
  rw [this, formatA_and]

theorem formatXYN_and_op (op : BitVec 4) (x y : Reg) (n : BitVec 4) :
    formatXYN op x y n &&& 0xF000 = formatA op 0 := by
  have : formatXYN op x y n = formatA op (fieldNNN (formatXYN op x y n)) := by
    conv_lhs => rw [← formatA_fields (formatXYN op x y n)]
    rw [fieldOp_formatXYN]
  rw [this, formatA_and]

/-- A row whose mask fixes `op` and the low byte covers format XF with those. -/
theorem formatXI_and (op : BitVec 4) (x : Reg) (nn : Byte) : formatXI op x nn &&& 0xF0FF = formatXI op 0 nn := by
  rw [show (0xF0FF : Word) = (0xF#4 ++ 0#4 ++ 0xFF#8 : BitVec (4 + 4 + 8)) by decide]
  show (op ++ regBits x ++ nn) &&& (0xF#4 ++ 0#4 ++ 0xFF#8) = op ++ 0#4 ++ nn
  rw [append_and_append, append_and_append, BitVec.and_zero]
  exact congrArg₂ (fun (o : BitVec 4) (b : BitVec 8) => o ++ 0#4 ++ b) BitVec.and_allOnes BitVec.and_allOnes

/-- A row whose mask fixes `op` and the low nibble covers format XY with those. -/
theorem formatXYN_and (op : BitVec 4) (x y : Reg) (n : BitVec 4) :
    formatXYN op x y n &&& 0xF00F = formatXYN op 0 0 n := by
  rw [show (0xF00F : Word) = (0xF#4 ++ 0#4 ++ 0#4 ++ 0xF#4 : BitVec (4 + 4 + 4 + 4)) by decide]
  show (op ++ regBits x ++ regBits y ++ n) &&& (0xF#4 ++ 0#4 ++ 0#4 ++ 0xF#4) = op ++ 0#4 ++ 0#4 ++ n
  rw [append_and_append, append_and_append, append_and_append, BitVec.and_zero, BitVec.and_zero]
  exact congrArg₂ (fun (o : BitVec 4) (b : BitVec 4) => o ++ 0#4 ++ 0#4 ++ b) BitVec.and_allOnes BitVec.and_allOnes

/-- The rows of a number, picked out of the opcode map. -/
theorem of_filter {i : Instr} {n : Nat} (hn : i.rowNumber = n)
    (h : ∀ row ∈ (recognizedRows ++ conventionalRows).filter (fun row => row.number == n),
      row.covers (encode i) = true) : Statement i := fun row mem e =>
  h row (List.mem_filter.2 ⟨mem, by simp [e, hn]⟩)

/-- One row of the number `n` stands in the opcode map, and it covers the instruction's word. -/
theorem of_row {i : Instr} {n : Nat} (row : OpcodeRow) (hn : i.rowNumber = n)
    (picked : (recognizedRows ++ conventionalRows).filter (fun row => row.number == n) = [row])
    (h : encode i &&& row.mask = row.value) : Statement i :=
  of_filter hn fun row' mem => by
    rw [picked, List.mem_singleton] at mem
    rw [mem, OpcodeRow.covers, h, beq_self_eq_true]

theorem cls : Statement .cls := of_row ⟨1, 0x00E0, 0xFFFF⟩ rfl rfl (by decide)

theorem ret : Statement .ret := of_row ⟨2, 0x00EE, 0xFFFF⟩ rfl rfl (by decide)

theorem jp (nnn : Address) : Statement (.jp nnn) :=
  of_row ⟨3, 0x1000, 0xF000⟩ rfl rfl ((formatA_and _ nnn).trans (by decide))

theorem call (nnn : Address) : Statement (.call nnn) :=
  of_row ⟨4, 0x2000, 0xF000⟩ rfl rfl ((formatA_and _ nnn).trans (by decide))

theorem seImm (x : Reg) (nn : Byte) : Statement (.seImm x nn) :=
  of_row ⟨5, 0x3000, 0xF000⟩ rfl rfl ((formatXI_and_op _ x nn).trans (by decide))

theorem sneImm (x : Reg) (nn : Byte) : Statement (.sneImm x nn) :=
  of_row ⟨6, 0x4000, 0xF000⟩ rfl rfl ((formatXI_and_op _ x nn).trans (by decide))

theorem seReg (x y : Reg) : Statement (.seReg x y) :=
  of_row ⟨7, 0x5000, 0xF00F⟩ rfl rfl ((formatXYN_and _ x y _).trans (by decide))

theorem ldImm (x : Reg) (nn : Byte) : Statement (.ldImm x nn) :=
  of_row ⟨8, 0x6000, 0xF000⟩ rfl rfl ((formatXI_and_op _ x nn).trans (by decide))

theorem addImm (x : Reg) (nn : Byte) : Statement (.addImm x nn) :=
  of_row ⟨9, 0x7000, 0xF000⟩ rfl rfl ((formatXI_and_op _ x nn).trans (by decide))

theorem ldReg (x y : Reg) : Statement (.ldReg x y) :=
  of_row ⟨10, 0x8000, 0xF00F⟩ rfl rfl ((formatXYN_and _ x y _).trans (by decide))

theorem orReg (x y : Reg) : Statement (.orReg x y) :=
  of_row ⟨11, 0x8001, 0xF00F⟩ rfl rfl ((formatXYN_and _ x y _).trans (by decide))

theorem andReg (x y : Reg) : Statement (.andReg x y) :=
  of_row ⟨12, 0x8002, 0xF00F⟩ rfl rfl ((formatXYN_and _ x y _).trans (by decide))

theorem xorReg (x y : Reg) : Statement (.xorReg x y) :=
  of_row ⟨13, 0x8003, 0xF00F⟩ rfl rfl ((formatXYN_and _ x y _).trans (by decide))

theorem addReg (x y : Reg) : Statement (.addReg x y) :=
  of_row ⟨14, 0x8004, 0xF00F⟩ rfl rfl ((formatXYN_and _ x y _).trans (by decide))

theorem subReg (x y : Reg) : Statement (.subReg x y) :=
  of_row ⟨15, 0x8005, 0xF00F⟩ rfl rfl ((formatXYN_and _ x y _).trans (by decide))

theorem shrReg (x y : Reg) : Statement (.shrReg x y) :=
  of_row ⟨16, 0x8006, 0xF00F⟩ rfl rfl ((formatXYN_and _ x y _).trans (by decide))

theorem subnReg (x y : Reg) : Statement (.subnReg x y) :=
  of_row ⟨17, 0x8007, 0xF00F⟩ rfl rfl ((formatXYN_and _ x y _).trans (by decide))

theorem shlReg (x y : Reg) : Statement (.shlReg x y) :=
  of_row ⟨18, 0x800E, 0xF00F⟩ rfl rfl ((formatXYN_and _ x y _).trans (by decide))

theorem sneReg (x y : Reg) : Statement (.sneReg x y) :=
  of_row ⟨19, 0x9000, 0xF00F⟩ rfl rfl ((formatXYN_and _ x y _).trans (by decide))

theorem ldI (nnn : Address) : Statement (.ldI nnn) :=
  of_row ⟨20, 0xA000, 0xF000⟩ rfl rfl ((formatA_and _ nnn).trans (by decide))

theorem drw (x y : Reg) (n : Fin 16) : Statement (.drw x y n) :=
  of_row ⟨21, 0xD000, 0xF000⟩ rfl rfl ((formatXYN_and_op _ x y _).trans (by decide))

theorem ldVxDt (x : Reg) : Statement (.ldVxDt x) :=
  of_row ⟨22, 0xF007, 0xF0FF⟩ rfl rfl ((formatXI_and _ x _).trans (by decide))

theorem ldVxK (x : Reg) : Statement (.ldVxK x) :=
  of_row ⟨23, 0xF00A, 0xF0FF⟩ rfl rfl ((formatXI_and _ x _).trans (by decide))

theorem ldDtVx (x : Reg) : Statement (.ldDtVx x) :=
  of_row ⟨24, 0xF015, 0xF0FF⟩ rfl rfl ((formatXI_and _ x _).trans (by decide))

theorem ldStVx (x : Reg) : Statement (.ldStVx x) :=
  of_row ⟨25, 0xF018, 0xF0FF⟩ rfl rfl ((formatXI_and _ x _).trans (by decide))

theorem addI (x : Reg) : Statement (.addI x) :=
  of_row ⟨26, 0xF01E, 0xF0FF⟩ rfl rfl ((formatXI_and _ x _).trans (by decide))

theorem ldF (x : Reg) : Statement (.ldF x) :=
  of_row ⟨27, 0xF029, 0xF0FF⟩ rfl rfl ((formatXI_and _ x _).trans (by decide))

theorem ldB (x : Reg) : Statement (.ldB x) :=
  of_row ⟨28, 0xF033, 0xF0FF⟩ rfl rfl ((formatXI_and _ x _).trans (by decide))

theorem storeRegs (x : Reg) : Statement (.storeRegs x) :=
  of_row ⟨29, 0xF055, 0xF0FF⟩ rfl rfl ((formatXI_and _ x _).trans (by decide))

theorem loadRegs (x : Reg) : Statement (.loadRegs x) :=
  of_row ⟨30, 0xF065, 0xF0FF⟩ rfl rfl ((formatXI_and _ x _).trans (by decide))

theorem sys (nnn : Address) : Statement (.sys nnn) :=
  of_row ⟨31, 0x0000, 0xF000⟩ rfl rfl ((formatA_and _ nnn).trans (by decide))

theorem jpV0 (nnn : Address) : Statement (.jpV0 nnn) :=
  of_row ⟨32, 0xB000, 0xF000⟩ rfl rfl ((formatA_and _ nnn).trans (by decide))

theorem rnd (x : Reg) (nn : Byte) : Statement (.rnd x nn) :=
  of_row ⟨33, 0xC000, 0xF000⟩ rfl rfl ((formatXI_and_op _ x nn).trans (by decide))

theorem skp (x : Reg) : Statement (.skp x) :=
  of_row ⟨34, 0xE09E, 0xF0FF⟩ rfl rfl ((formatXI_and _ x _).trans (by decide))

theorem sknp (x : Reg) : Statement (.sknp x) :=
  of_row ⟨35, 0xE0A1, 0xF0FF⟩ rfl rfl ((formatXI_and _ x _).trans (by decide))

/-- The catch-all has no row with fixed bits. -/
theorem unrecognized (w : Word) : Statement (.unrecognized w) :=
  of_filter (n := 36) rfl fun _ mem => absurd mem (by decide +revert)

end Sys2Proof.Laws.EncodesItsRow
end

