-- ==== Sys2Proof/Laws/Step.lean ====
section
/-! SUPPORT. What one step can do, said once, and the instructions whose meaning can raise, each in its two cases. -/

namespace Sys2Proof.Machine

/-- If a step answers a next state, then one of its four ways (40_step_and_dispatch.md R120) led there, the fourth
with or without a fetch fault. -/
theorem step_cases {s t : State} (h : step s = .next t) :
    (s.fault ≠ none ∧ t = s) ∨
    (s.fault = none ∧ ∃ r, s.kw = .waiting r ∧ t = waitPhase r s) ∨
    (s.fault = none ∧ s.kw = .resolved ∧ t = resolvedPhase s) ∨
    (s.fault = none ∧ s.kw = .notWaiting ∧ ∃ f, fetch s = .error f ∧ t = s.raise f) ∨
    (s.fault = none ∧ s.kw = .notWaiting ∧ ∃ w, fetch s = .ok w ∧ exec (decode w) s = .next t) := by
  unfold step at h
  cases hf : s.fault with
  | some f => exact .inl ⟨by simp, by simpa [hf] using h.symm⟩
  | none =>
    refine .inr ?_
    cases hk : s.kw with
    | waiting r => exact .inl ⟨rfl, r, rfl, by simpa [hf, hk] using h.symm⟩
    | resolved => exact .inr (.inl ⟨rfl, rfl, by simpa [hf, hk] using h.symm⟩)
    | notWaiting =>
      refine .inr (.inr ?_)
      cases he : fetch s with
      | error f => exact .inl ⟨rfl, rfl, f, rfl, by simpa [hf, hk, he] using h.symm⟩
      | ok w => exact .inr ⟨rfl, rfl, w, rfl, by simpa [hf, hk, he] using h⟩

/-- A step that is neither stopped nor in a key-wait fetches, and executes what it decodes. -/
theorem step_fetching {s : State} (hf : s.fault = none) (hk : s.kw = .notWaiting) :
    step s = match fetch s with
      | .error f => .next (s.raise f)
      | .ok w => exec (decode w) s := by
  unfold step
  rw [hf, hk] <;> rfl

/-! Runs -/

theorem run_zero (s : State) : Sys2Proof.core.run 0 s = .next s := rfl

theorem run_succ {s t : State} (n : Nat) (h : step s = .next t) :
    Sys2Proof.core.run (n + 1) s = Sys2Proof.core.run n t := by
  have stepped : Sys2Proof.core.step s = .next t := h
  refine (Host.Core.run.eq_2 Sys2Proof.core s n).trans ?_
  rw [stepped]

/-- A state that a step leaves as it is stays so for ever. -/
theorem run_fixed {s : State} (h : step s = .next s) (n : Nat) : Sys2Proof.core.run n s = .next s := by
  induction n with
  | zero => rfl
  | succ n ih => rw [run_succ n h, ih]

/-! The instructions that can raise -/

theorem execCall_ok {s : State} (nnn : Address) (h : s.sp.val < 16) :
    execCall nnn s = .next { s with
      stack := s.stack.set s.sp.val s.pc h, sp := ⟨s.sp.val + 1, by omega⟩, pc := addressWord nnn } := by
  rw [execCall, pushPc_ok s h]
  rfl

theorem execCall_error {s : State} (nnn : Address) (h : s.sp.val = 16) :
    execCall nnn s = .next (s.raise (.stackOverflow s.pc)) := by
  rw [execCall, pushPc_error s h]
  rfl

theorem execRet_ok {s : State} (h : 0 < s.sp.val) :
    execRet s = .next { s with
      sp := ⟨s.sp.val - 1, by omega⟩, pc := s.stack[s.sp.val - 1]'(by omega) + 2#16 } := by
  rw [execRet, popAddress_ok s h]
  rfl

theorem execRet_error {s : State} (h : s.sp.val = 0) : execRet s = .next (s.raise (.stackUnderflow s.pc)) := by
  rw [execRet, popAddress_error s h]
  rfl

theorem execLdB_ok {s : State} (x : Reg) (h : lowestInvalid s.baseAddress 3 = none) :
    execLdB x s = .next { s with mem := s.mem.setRun s.baseAddress (bcdDigits s.v[x]) }.advance := by
  rw [execLdB, writeRun_ok s _ h]
  rfl

theorem execLdB_error {s : State} {addr : Nat} (x : Reg) (h : lowestInvalid s.baseAddress 3 = some addr) :
    execLdB x s = .next (s.raise (.memOutOfRange s.pc addr .write)) := by
  rw [execLdB, writeRun_error s _ h]
  rfl

theorem execStoreRegs_ok {s : State} (x : Reg) (h : lowestInvalid s.baseAddress (x.val + 1) = none) :
    execStoreRegs x s = .next { s with mem := s.mem.setRun s.baseAddress (firstRegisters s.v x) }.advance := by
  rw [execStoreRegs, writeRun_ok s _ (by simpa using h)]
  rfl

theorem execStoreRegs_error {s : State} {addr : Nat} (x : Reg)
    (h : lowestInvalid s.baseAddress (x.val + 1) = some addr) :
    execStoreRegs x s = .next (s.raise (.memOutOfRange s.pc addr .write)) := by
  rw [execStoreRegs, writeRun_error s _ (by simpa using h)]
  rfl

theorem execLoadRegs_ok {s : State} (x : Reg) (h : lowestInvalid s.baseAddress (x.val + 1) = none) :
    execLoadRegs x s = .next { s with
      v := loadFirstRegisters s.v 0 (runBytes s.mem s.baseAddress (x.val + 1)) }.advance := by
  rw [execLoadRegs, readRun_ok s _ _ _ h]
  rfl

theorem execLoadRegs_error {s : State} {addr : Nat} (x : Reg)
    (h : lowestInvalid s.baseAddress (x.val + 1) = some addr) :
    execLoadRegs x s = .next (s.raise (.memOutOfRange s.pc addr .read)) := by
  rw [execLoadRegs, readRun_error s _ _ _ h]
  rfl

/-- What `DRW` draws: the framebuffer and whether a pixel collided. -/
def drawn (x y : Reg) (n : Fin 16) (s : State) : Framebuffer × Bool :=
  drawSprite s.fb (spriteColumn s.v[x]) (spriteRow s.v[y]) (runBytes s.mem s.baseAddress n.val)

theorem execDrw_ok {s : State} (x y : Reg) (n : Fin 16) (h : lowestInvalid s.baseAddress n.val = none) :
    execDrw x y n s = .next { s with
      fb := (drawn x y n s).1, v := s.v.set vf.val (flagByte (drawn x y n s).2), pc := s.pc + 2#16 } := by
  rw [execDrw, readRun_ok s _ _ _ h]
  rfl

theorem execDrw_error {s : State} {addr : Nat} (x y : Reg) (n : Fin 16)
    (h : lowestInvalid s.baseAddress n.val = some addr) :
    execDrw x y n s = .next (s.raise (.memOutOfRange s.pc addr .read)) := by
  rw [execDrw, readRun_error s _ _ _ h]
  rfl

/-! The placing of an instruction word -/

/-- The step after a word is placed runs exactly the instruction that the word stands for. -/
theorem step_placeWord (s : State) (w : Word) (wf : s.mem.wf) :
    step (placeWord s w) = exec (decode w) (placeWord s w) := by
  have bound : (placeAddress s).toNat ≤ 0xFFE := by
    unfold placeAddress
    split
    · assumption
    · decide
  have fetched : fetch (placeWord s w) = .ok w := by
    have pc : (placeWord s w).pc = placeAddress s := rfl
    have mem : (placeWord s w).mem =
        s.mem.setRun (placeAddress s).toNat [(bytesOfWord w).1, (bytesOfWord w).2] := rfl
    rw [fetch_ok _ (by rw [pc]; exact bound), pc, mem, Memory.get_setRun wf (by simp; omega),
      Memory.get_setRun wf (by simp; omega), if_pos (by simp), if_pos (by simp)]
    simp only [Nat.sub_self, List.getD_cons_zero, Nat.add_sub_cancel_left, List.getD_cons_succ]
    rw [wordOfBytes_bytesOfWord]
  rw [step_fetching rfl rfl, fetched]

end Sys2Proof.Machine
end

