-- ==== Sys2Proof/Tests/Slice0.lean ====
section
/-! SUPPORT. The model's own tests, and the witnesses: for every statement that has hypotheses, a concrete state and
operands that meet all of them, at the ends of their ranges. Every expected value is the spec's: 95_test_vectors.md
where a docstring names a vector or a section of it, else a rule's own **Example**. -/

namespace Sys2Proof.Tests

open Sys2Proof Sys2Proof.Machine Sys2Proof.Claims

/-- Something read from the next state, where there is one. -/
def after {α : Type} (o : Host.Outcome State Fault Refusal) (f : State → α) : Option α :=
  match o with
  | .next t => some (f t)
  | _ => none

/-- The "start state" of 95_test_vectors.md: reset, a word at 0x200, `I`, and some registers. -/
def machine (word : Nat) (i : Word) (regs : List (Reg × Byte)) : State :=
  regs.foldl (fun s r => s.writeV r.1 r.2) { State.reset.withFetchWord 16 word with i := i }

/-- The start state with some bytes stored at `I`. -/
def machineWith (word : Nat) (i : Word) (bytes : List Byte) (regs : List (Reg × Byte)) : State :=
  let s := machine word i regs
  { s with mem := s.mem.setRun i.toNat bytes }

/-- The keys of a list pressed. -/
def keysOf (pressed : List Reg) : Keys := Vector.ofFn fun key => decide (key ∈ pressed)

/-! ## Well-formedness -/

/-- `0x00E0` and `0x00EE` are `CLS` and `RET`, so no `SYS` has those addresses. -/
theorem test_wf_refuses_sys_of_cls_and_ret :
    (Instr.sys 0x0E0).wf = false ∧ (Instr.sys 0x0EE).wf = false ∧ (Instr.sys 0x0E1).wf = true := by decide

/-- A word of a recognized row is not unrecognized. -/
theorem test_wf_refuses_unrecognized_of_a_recognized_row :
    (Instr.unrecognized 0x1234).wf = false ∧ (Instr.unrecognized 0xF165).wf = false := by decide

/-- A word of a conventional row is not the catch-all's. -/
theorem test_wf_refuses_unrecognized_of_a_conventional_row :
    (Instr.unrecognized 0x0000).wf = false ∧ (Instr.unrecognized 0xB123).wf = false ∧
    (Instr.unrecognized 0xE19E).wf = false := by decide

theorem test_wf_accepts_unrecognized :
    (Instr.unrecognized 0x5AB1).wf = true ∧ (Instr.unrecognized 0xE100).wf = true := by decide

/-! ## Decoding: a word written out bit by bit for every constructor (30_encoding.md R92, R95, R97) -/

theorem test_decode_cls : decode 0b0000000011100000 = .cls := by decide
theorem test_decode_ret : decode 0b0000000011101110 = .ret := by decide
theorem test_decode_jp : decode 0b0001101010111100 = .jp 0xABC := by decide
theorem test_decode_call : decode 0b0010111111111111 = .call 0xFFF := by decide
theorem test_decode_seImm : decode 0b0011101001111111 = .seImm 0xA 0x7F := by decide
theorem test_decode_sneImm : decode 0b0100000000000000 = .sneImm 0x0 0x00 := by decide
theorem test_decode_seReg : decode 0b0101101010110000 = .seReg 0xA 0xB := by decide
theorem test_decode_ldImm : decode 0b0110111111111111 = .ldImm 0xF 0xFF := by decide
theorem test_decode_addImm : decode 0b0111111000000001 = .addImm 0xE 0x01 := by decide
theorem test_decode_ldReg : decode 0b1000000100100000 = .ldReg 1 2 := by decide
theorem test_decode_orReg : decode 0b1000000100100001 = .orReg 1 2 := by decide
theorem test_decode_andReg : decode 0b1000000100100010 = .andReg 1 2 := by decide
theorem test_decode_xorReg : decode 0b1000000100100011 = .xorReg 1 2 := by decide
theorem test_decode_addReg : decode 0b1000000100100100 = .addReg 1 2 := by decide
theorem test_decode_subReg : decode 0b1000000100100101 = .subReg 1 2 := by decide
theorem test_decode_shrReg : decode 0b1000000100100110 = .shrReg 1 2 := by decide
theorem test_decode_subnReg : decode 0b1000000100100111 = .subnReg 1 2 := by decide
theorem test_decode_shlReg : decode 0b1000000100101110 = .shlReg 1 2 := by decide
theorem test_decode_sneReg : decode 0b1001101010110000 = .sneReg 0xA 0xB := by decide
theorem test_decode_ldI : decode 0b1010000100100011 = .ldI 0x123 := by decide
theorem test_decode_drw : decode 0b1101001110100111 = .drw 3 0xA 7 := by decide
theorem test_decode_ldVxDt : decode 0b1111000100000111 = .ldVxDt 1 := by decide
theorem test_decode_ldVxK : decode 0b1111000100001010 = .ldVxK 1 := by decide
theorem test_decode_ldDtVx : decode 0b1111000100010101 = .ldDtVx 1 := by decide
theorem test_decode_ldStVx : decode 0b1111000100011000 = .ldStVx 1 := by decide
theorem test_decode_addI : decode 0b1111000100011110 = .addI 1 := by decide
theorem test_decode_ldF : decode 0b1111000100101001 = .ldF 1 := by decide
theorem test_decode_ldB : decode 0b1111000100110011 = .ldB 1 := by decide
theorem test_decode_storeRegs : decode 0b1111000101010101 = .storeRegs 1 := by decide
theorem test_decode_loadRegs : decode 0b1111000101100101 = .loadRegs 1 := by decide
theorem test_decode_sys : decode 0b0000000100100011 = .sys 0x123 := by decide
theorem test_decode_jpV0 : decode 0b1011000100100011 = .jpV0 0x123 := by decide
theorem test_decode_rnd : decode 0b1100000111111111 = .rnd 1 0xFF := by decide
theorem test_decode_skp : decode 0b1110000110011110 = .skp 1 := by decide
theorem test_decode_sknp : decode 0b1110000110100001 = .sknp 1 := by decide
theorem test_decode_unrecognized : decode 0b0101101010110001 = .unrecognized 0x5AB1 := by decide

/-- 95_test_vectors.md section 2.0: neighbours that a mask must not take in. -/
theorem test_decode_masks_are_exact :
    [0x0000, 0x00E1, 0x00FE, 0x8128, 0x812D, 0x812F, 0x9ABF, 0xF100, 0xF175, 0xF1FF, 0xFFFF, 0xF10B].all
      (fun w => !(decode w).recognized) = true := by decide

/-- 95_test_vectors.md section 2.0: `12 34` is `JP 0x234`, `34 12` is `SE V4,0x12`; half a word is rejected by name. -/
theorem test_decode_bytes :
    decodeBytes [0x12, 0x34] = .ok (.jp 0x234, []) ∧ decodeBytes [0x34, 0x12, 0x55] = .ok (.seImm 4 0x12, [0x55]) ∧
    decodeBytes [0x12] = .error (.halfWord 0x12) ∧ decodeBytes [] = .error .noBytes := by decide

theorem test_decode_table_word :
    decodeTableWord 16 0x8127 = some (.subnReg 1 2) ∧ decodeTableWord 16 0x00E0 = some .cls := by decide

/-- The inverse direction, with the words of section 2.0. -/
theorem test_encode :
    encode (.drw 3 0xA 7) = 0xD3A7 ∧ encode (.sneReg 0xA 0xB) = 0x9AB0 ∧ encode (.addI 1) = 0xF11E ∧
    encode (.call 0xFFF) = 0x2FFF ∧ encode (.sneImm 0xA 0x7F) = 0x4A7F := by decide

/-! ## Control transfer (95_test_vectors.md section 2.1) -/

/-- The stack of the vector: one call site, 0x200. -/
def called : State := { machine 0x00EE 0 [] with stack := (Vector.replicate 16 0).set 0 0x0204, sp := 1 }

/-- R140's example: `pc` is the call site plus 2, and the slot is not cleared. -/
theorem test_ret : after (step called) (fun t => (t.pc, t.sp, t.stack[0])) = some (0x206, 0, 0x204) := by decide

/-- X3. -/
theorem test_ret_underflow : after (step (machine 0x00EE 0 [])) (fun t => (t.pc, t.sp, t.fault)) =
    some (0x200, 0, some (.stackUnderflow 0x200)) := by decide

/-- An odd target is taken as it is. -/
theorem test_jp : after (step (machine 0x1203 0 [])) (fun t => (t.pc, t.sp)) = some (0x203, 0) := by decide

theorem test_call : after (step (machine 0x2300 0 [])) (fun t => (t.pc, t.sp, t.stack[0])) =
    some (0x300, 1, 0x200) := by decide

/-- X2: the seventeenth call. -/
theorem test_call_overflow : after (step { machine 0x2200 0 [] with sp := 16 }) (fun t => (t.pc, t.sp, t.fault)) =
    some (0x200, 16, some (.stackOverflow 0x200)) := by decide

theorem test_seImm : after (step (machine 0x3142 0 [(1, 0x42)])) State.pc = some 0x204 ∧
    after (step (machine 0x3142 0 [(1, 0x43)])) State.pc = some 0x202 := by decide

theorem test_sneImm : after (step (machine 0x4142 0 [(1, 0x42)])) State.pc = some 0x202 ∧
    after (step (machine 0x4142 0 [(1, 0x43)])) State.pc = some 0x204 := by decide

theorem test_seReg : after (step (machine 0x5120 0 [(1, 7), (2, 7)])) State.pc = some 0x204 ∧
    after (step (machine 0x5120 0 [(1, 7), (2, 8)])) State.pc = some 0x202 := by decide

theorem test_sneReg : after (step (machine 0x9120 0 [(1, 7), (2, 7)])) State.pc = some 0x202 ∧
    after (step (machine 0x9120 0 [(1, 7), (2, 8)])) State.pc = some 0x204 := by decide

/-- X5's second step: a skip at 0xFFE leads to 0x1002 and faults nothing yet. -/
theorem test_skip_past_the_end :
    after (step (State.withFetchWord { State.reset with pc := 0xFFE } 16 0x3000)) (fun t => (t.pc, t.fault)) =
      some (0x1002, none) := by decide

/-! ## Immediate loads and the ALU group (95_test_vectors.md sections 2.2 and 2.3) -/

theorem test_ldImm : after (step (machine 0x6F00 0 [(15, 1)])) (fun t => (t.v[vf], t.pc)) = some (0, 0x202) := by decide

theorem test_addImm : after (step (machine 0x71FF 0 [(1, 0x01), (15, 7)])) (fun t => (t.v[1], t.v[vf])) =
    some (0x00, 7) := by decide

/-- `ADD VF,nn` is plain addition: no flag is written over it. -/
theorem test_addImm_of_flag : after (step (machine 0x7F02 0 [(15, 0xFF)])) (fun t => t.v[vf]) = some 0x01 := by decide

/-- The start state of section 2.2. -/
def alu (word : Nat) (v1 v2 flag : Byte) : State := machine word 0 [(1, v1), (2, v2), (15, flag)]

/-- `V1`, `V2` and `VF` after a step. -/
def aluOut (s : State) : Option (Byte × Byte × Byte) := after (step s) fun t => (t.v[1], t.v[2], t.v[vf])

theorem test_ldReg : aluOut (alu 0x8120 0x0F 0xF0 0x55) = some (0xF0, 0xF0, 0x55) := by decide
theorem test_orReg : aluOut (alu 0x8121 0xAA 0x81 0x01) = some (0xAB, 0x81, 0x01) := by decide
theorem test_andReg : aluOut (alu 0x8122 0xAA 0x81 0x01) = some (0x80, 0x81, 0x01) := by decide
theorem test_xorReg : aluOut (alu 0x8123 0xAA 0x81 0x01) = some (0x2B, 0x81, 0x01) := by decide

theorem test_addReg : aluOut (alu 0x8124 0xFF 0x01 0x00) = some (0x00, 0x01, 0x01) ∧
    aluOut (alu 0x8124 0x01 0x01 0x01) = some (0x02, 0x01, 0x00) := by decide

theorem test_subReg : aluOut (alu 0x8125 0x03 0x05 0x01) = some (0xFE, 0x05, 0x00) ∧
    aluOut (alu 0x8125 0x07 0x07 0x00) = some (0x00, 0x07, 0x01) := by decide

theorem test_shrReg : aluOut (alu 0x8126 0xFF 0x81 0x00) = some (0x40, 0x81, 0x01) ∧
    aluOut (alu 0x8126 0x00 0xF0 0x01) = some (0x78, 0xF0, 0x00) := by decide

theorem test_subnReg : aluOut (alu 0x8127 0x03 0x05 0x00) = some (0x02, 0x05, 0x01) ∧
    aluOut (alu 0x8127 0x05 0x03 0x01) = some (0xFE, 0x03, 0x00) := by decide

theorem test_shlReg : aluOut (alu 0x812E 0x00 0x81 0x00) = some (0x02, 0x81, 0x01) ∧
    aluOut (alu 0x812E 0xFF 0x40 0x01) = some (0x80, 0x40, 0x00) := by decide

/-- The start state of section 2.3. -/
def roles (word : Nat) : State := machine word 0 [(1, 0xC8), (2, 0x64), (3, 0xC8), (15, 0x03)]

/-- `V1`, `V3` and `VF` after a step. -/
def rolesOut (word : Nat) : Option (Byte × Byte × Byte) := after (step (roles word)) fun t => (t.v[1], t.v[3], t.v[vf])

/-- Section 2.3, row `ADD`: the flag survives the result; the old `VF` is the addend; `x = y` doubles. -/
theorem test_addReg_roles : rolesOut 0x8F24 = some (0xC8, 0xC8, 0x00) ∧ rolesOut 0x81F4 = some (0xCB, 0xC8, 0x00) ∧
    rolesOut 0x8334 = some (0xC8, 0x90, 0x01) ∧ rolesOut 0x8FF4 = some (0xC8, 0xC8, 0x00) := by decide

/-- Section 2.3, row `SUB`. -/
theorem test_subReg_roles : rolesOut 0x8F25 = some (0xC8, 0xC8, 0x00) ∧ rolesOut 0x81F5 = some (0xC5, 0xC8, 0x01) ∧
    rolesOut 0x8335 = some (0xC8, 0x00, 0x01) ∧ rolesOut 0x8FF5 = some (0xC8, 0xC8, 0x01) := by decide

/-- Section 2.3, row `SHR`. -/
theorem test_shrReg_roles : rolesOut 0x8F26 = some (0xC8, 0xC8, 0x00) ∧ rolesOut 0x81F6 = some (0x01, 0xC8, 0x01) ∧
    rolesOut 0x8336 = some (0xC8, 0x64, 0x00) ∧ rolesOut 0x8FF6 = some (0xC8, 0xC8, 0x01) := by decide

/-- Section 2.3, row `SUBN`. -/
theorem test_subnReg_roles : rolesOut 0x8F27 = some (0xC8, 0xC8, 0x01) ∧ rolesOut 0x81F7 = some (0x3B, 0xC8, 0x00) ∧
    rolesOut 0x8337 = some (0xC8, 0x00, 0x01) ∧ rolesOut 0x8FF7 = some (0xC8, 0xC8, 0x01) := by decide

/-- Section 2.3, row `SHL`. -/
theorem test_shlReg_roles : rolesOut 0x8F2E = some (0xC8, 0xC8, 0x00) ∧ rolesOut 0x81FE = some (0x06, 0xC8, 0x00) ∧
    rolesOut 0x833E = some (0xC8, 0x90, 0x01) ∧ rolesOut 0x8FFE = some (0xC8, 0xC8, 0x00) := by decide

/-! ## Index register and memory (95_test_vectors.md section 2.4) -/

theorem test_ldI : after (step (machine 0xAFFF 0 [])) (fun t => (t.i, t.pc)) = some (0x0FFF, 0x202) := by decide

theorem test_addI : after (step (machine 0xF21E 0x0FFF [(2, 0x01), (15, 7)])) (fun t => (t.i, t.v[vf], t.fault)) =
    some (0x1000, 7, none) := by decide

theorem test_addI_wraps : after (step (machine 0xF21E 0xFFFF [(2, 0xFF)])) State.i = some 0x00FE := by decide

/-- The whole of `V1` is used: 0x1A gives 0x0D2, not 0x082. -/
theorem test_ldF : after (step (machine 0xF129 0 [(1, 0x0A)])) State.i = some 0x0082 ∧
    after (step (machine 0xF129 0 [(1, 0x1A)])) State.i = some 0x00D2 := by decide

theorem test_ldB : after (step (machine 0xF433 0x0FFD [(4, 0x7B)]))
    (fun t => (t.mem.get 0xFFD, t.mem.get 0xFFE, t.mem.get 0xFFF, t.pc, t.i)) = some (1, 2, 3, 0x202, 0xFFD) := by decide

theorem test_ldB_faults : after (step (machine 0xF433 0x0FFE [(4, 0x7B)])) (fun t => (t.mem.get 0xFFE, t.pc, t.fault)) =
    some (0, 0x200, some (.memOutOfRange 0x200 0x1000 .write)) := by decide

theorem test_storeRegs : after (step (machine 0xF355 0x0300 [(0, 0xA0), (1, 0xA1), (2, 0xA2), (3, 0xA3), (4, 0xA4)]))
    (fun t => ((List.range 5).map (fun k => t.mem.get (0x300 + k)), t.i)) =
      some ([0xA0, 0xA1, 0xA2, 0xA3, 0x00], 0x300) := by decide

theorem test_storeRegs_faults : after (step (machine 0xF355 0xFFFF [(0, 0xA0)])) (fun t => (t.mem.get 0, t.fault)) =
    some (0, some (.memOutOfRange 0x200 0xFFFF .write)) := by decide

theorem test_loadRegs : after (step (machineWith 0xF265 0x0300 [2, 5, 4, 9] [(3, 0x77)]))
    (fun t => (t.v[0], t.v[1], t.v[2], t.v[3], t.i)) = some (2, 5, 4, 0x77, 0x300) := by decide

theorem test_loadRegs_faults : after (step (machine 0xFF65 0x0FF1 [(0, 0x77)])) (fun t => (t.v[0], t.fault)) =
    some (0x77, some (.memOutOfRange 0x200 0x1000 .read)) := by decide

/-! ## Display (95_test_vectors.md section 2.5) -/

/-- The pixels of one row that are on. -/
def litInRow (t : State) (py : Fin 32) : List (Fin 64) := (List.finRange 64).filter fun px => t.display px py

/-- A state with pixel (0,0) on. -/
def cornerLit (word : Nat) : State :=
  let s := machineWith word 0x300 [0x80] [(15, 7)]
  { s with fb := s.fb.toggle 0 0 }

/-- V6, V7: a row of eight at (63,31), reached from `V0 = V1 = FF`, wraps to columns 0 to 6. V5: a pixel that was on
goes off and `VF` is 1. -/
theorem test_drw :
    after (step (machineWith 0xD011 0x300 [0xFF] [(0, 0xFF), (1, 0xFF)])) (fun t =>
      (litInRow t 31, litInRow t 0, t.v[vf])) = some ([0, 1, 2, 3, 4, 5, 6, 63], [], 0) ∧
    after (step (cornerLit 0xD011)) (fun t => (t.display 0 0, t.v[vf])) = some (false, 1) := by decide

/-- V12: a sprite past the end of memory draws nothing and leaves `VF`. -/
theorem test_drw_faults : after (step (machine 0xD003 0x0FFE [(15, 1)])) (fun t => (t.v[vf], t.pc, t.fault)) =
    some (1, 0x200, some (.memOutOfRange 0x200 0x1000 .read)) := by decide

/-- V3. -/
theorem test_cls : after (step (cornerLit 0x00E0)) (fun t => (t.display 0 0, t.v[vf], t.pc)) =
    some (false, 7, 0x202) := by decide

/-! ## Timers and keypad (95_test_vectors.md section 2.6) -/

theorem test_ldVxDt : after (step { machine 0xF407 0 [] with dt := 0x2A }) (fun t => (t.v[4], t.dt, t.pc)) =
    some (0x2A, 0x2A, 0x202) := by decide

theorem test_ldDtVx : after (step (machine 0xF015 0 [(0, 3)])) (fun t => (t.dt, t.st, t.pc)) =
    some (3, 0, 0x202) := by decide

theorem test_ldStVx : after (step (machine 0xF018 0 [(0, 1)])) (fun t => (t.dt, t.st, t.pc)) =
    some (0, 1, 0x202) := by decide

/-- Row 1 of the key-wait table: a key already down is remembered, not taken. -/
theorem test_ldVxK : after (step { machine 0xF50A 0 [] with k := keysOf [4] }) (fun t => (t.kw, t.pk, t.v[5], t.pc)) =
    some (.waiting 5, keysOf [4], 0, 0x200) := by decide

/-- A wait on `V5` with the keys last seen and the keys now. -/
def waiting (seen now : List Reg) : State :=
  { machine 0xF50A 0 [] with kw := .waiting 5, pk := keysOf seen, k := keysOf now }

/-- Row 4, and the variant of row 3: the lowest key newly down; row 2: none. -/
theorem test_wait_resolves :
    after (step (waiting [] [4, 9])) (fun t => (t.kw, t.v[5], t.pc)) = some (.resolved, 4, 0x200) ∧
    after (step (waiting [4] [2, 4])) (fun t => (t.kw, t.v[5], t.pc)) = some (.resolved, 2, 0x200) ∧
    after (step (waiting [4] [4])) (fun t => (t.kw, t.v[5], t.pc)) = some (.waiting 5, 0, 0x200) := by decide

/-- Row 5. -/
theorem test_wait_completes : after (step { waiting [4] [4] with kw := .resolved }) (fun t => (t.kw, t.pc)) =
    some (.notWaiting, 0x202) := by decide

/-- The `Tick` traces: (`buzz`, `DT`, `ST`). -/
theorem test_tick :
    [((0xFF : Byte), (1 : Byte)), (0, 3), (2, 0)].map (fun start =>
      let r := State.tick { State.reset with dt := start.1, st := start.2 }
      (r.2, r.1.dt, r.1.st)) = [(true, 0xFE, 0), (false, 0, 2), (false, 1, 0)] := by decide

/-! ## Unrecognized words (95_test_vectors.md section 2.0, R124's example) -/

theorem test_unrecognized : after (step (machine 0x5121 0 [(1, 7), (2, 7)])) State.pc = some 0x202 := by decide
theorem test_sys : after (step (machine 0x0123 0 [])) (fun t => (t.pc, t.sp)) = some (0x202, 0) := by decide
theorem test_jpV0 : after (step (machine 0xB123 0 [(0, 4)])) State.pc = some 0x202 := by decide
theorem test_rnd : after (step (machine 0xC1FF 0 [(1, 0x5A)])) (fun t => (t.pc, t.v[1])) = some (0x202, 0x5A) := by decide

theorem test_skp : after (step { machine 0xE19E 0 [(1, 4)] with k := keysOf [4] }) State.pc = some 0x202 := by decide
theorem test_sknp : after (step (machine 0xE1A1 0 [(1, 4)])) State.pc = some 0x202 := by decide

/-! ## The step, faults and the host's operations (95_test_vectors.md section 2.7) -/

/-- X4's second step. -/
theorem test_fetch_fault : after (step { State.reset with pc := 0xFFF }) (fun t => (t.pc, t.fault)) =
    some (0xFFF, some (.memOutOfRange 0xFFF 0x1000 .fetch)) := by decide

/-- X5's third step. -/
theorem test_fetch_fault_above : after (step { State.reset with pc := 0x1002 }) State.fault =
    some (some (.memOutOfRange 0x1002 0x1002 .fetch)) := by decide

/-- X3 followed by every other operation: nothing changes, `Load` returns `OK`, and `Reset` starts anew. -/
def stopped : State :=
  { machine 0x00EE 0 [(3, 9)] with fault := some (.stackUnderflow 0x200), dt := 5, st := 1 }

theorem test_faulted_is_absorbing :
    stopped.tick = (stopped, false) ∧ stopped.setKeys (keysOf [1]) = stopped ∧
    after (step stopped) id = some stopped ∧ stopped.load [0x12, 0x00] = (stopped, .ok) ∧
    stopped.resetOperation = State.reset := by decide

theorem test_reset_memory : [0x04F, 0x050, 0x09F, 0x0A0, 0x200].map (Memory.get State.reset.mem) =
    [0x00, 0xF0, 0x80, 0x00, 0x00] := by decide

theorem test_load : (State.reset.load [0x12, 0x0A]).2 = .ok ∧
    [0x1FF, 0x200, 0x201, 0x202].map (Memory.get (State.reset.load [0x12, 0x0A]).1.mem) = [0, 0x12, 0x0A, 0] := by decide

theorem test_load_too_large : State.reset.load (List.replicate 3585 0xAB) = (State.reset, .tooLarge) := by
  have long : Config.progMax < (List.replicate 3585 (0xAB : Byte)).length := by
    rw [List.length_replicate]
    decide
  rw [State.load, if_neg (by decide), if_pos long]

/-- A store of the value that an unlisted address reads as leaves no entry: equal memories are equal data. -/
theorem test_memory_is_canonical :
    (Memory.set [] 0x300 7).set 0x300 0 = [] ∧ (Memory.set [] 0x050 0).set 0x050 0xF0 = [] ∧
    (Memory.set [] 0x301 1).set 0x300 2 = [(0x300, 2), (0x301, 1)] := by decide

/-! ## Witnesses: the encoding and the step -/

theorem witness_DecodeOfEncode :
    (Instr.sys 0x123).wf = true ∧ (Instr.drw 15 15 15).wf = true ∧ (Instr.unrecognized 0x5AB1).wf = true := by decide

theorem witness_DecodeFollowsOpcodeMap :
    (∃ row ∈ recognizedRows, row.covers 0x8127 = true ∧ row.number = 17) ∧
    (∀ row ∈ recognizedRows, row.covers 0x0000 = false) ∧ (∀ row ∈ recognizedRows, row.covers 0xC1FF = false) := by
  decide

/-- Words of every mask that `EncodedAs` is used with. -/
theorem witness_EncodedAs :
    (0x00E0 : Word) &&& 0xFFFF = 0x00E0 ∧ (0x1FFF : Word) &&& 0xF000 = 0x1000 ∧
    (0x8FF4 : Word) &&& 0xF00F = 0x8004 ∧ (0xFF33 : Word) &&& 0xF0FF = 0xF033 := by decide

/-- One state for each of the four ways of a step; the fourth at the last address that can be fetched from. -/
theorem witness_StepRunsTheDecodedInstruction :
    stopped.fault ≠ none ∧
    ((waiting [] []).fault = none ∧ (waiting [] []).kw = .waiting 5) ∧
    (({ waiting [] [] with kw := .resolved } : State).fault = none ∧
      ({ waiting [] [] with kw := .resolved } : State).kw = .resolved) ∧
    (({ State.reset with pc := 0xFFE } : State).fault = none ∧
      ({ State.reset with pc := 0xFFE } : State).kw = .notWaiting ∧
      ({ State.reset with pc := 0xFFE } : State).pc.toNat ≤ 0xFFE) := by decide

theorem witness_FetchReadsTwoBytesAtPc :
    ({ State.reset with pc := 0xFFE } : State).pc.toNat ≤ 0xFFE ∧
    (({ State.reset with pc := 0xFFF } : State).fault = none ∧
      ({ State.reset with pc := 0xFFF } : State).kw = .notWaiting ∧
      0xFFE < ({ State.reset with pc := 0xFFF } : State).pc.toNat) ∧
    (List.replicate 3584 (0xAB : Byte)).length ≤ 3584 :=
  ⟨by decide, by decide, le_of_eq List.length_replicate⟩

theorem witness_PlacedWordRunsNext : State.reset.mem.wf ∧ (machine 0x1234 0 []).mem.wf := by decide

/-! ## Witnesses: the invariant -/

/-- The reset state meets the invariant. -/
theorem witness_Inv_reset : State.reset.Inv where
  memory := by decide
  pcBound := by decide
  waitFetched := by decide
  callSites := by decide
  faultPc := by intro f h; cases h
  faultGrounds := by intro f h; cases h

/-- A state in a key-wait inside a call, with a byte stored, meets it. -/
def waitingInCall : State :=
  { waiting [1] [1, 2] with sp := 1, stack := (Vector.replicate 16 0).set 0 0xFFE, mem := [(0xFFF, 1)] }

theorem witness_Inv_waiting : waitingInCall.Inv where
  memory := by decide
  pcBound := by decide
  waitFetched := by decide
  callSites := by decide
  faultPc := by intro f h; cases h
  faultGrounds := by intro f h; cases h

/-- A faulted state meets it. -/
theorem witness_Inv_stopped : stopped.Inv where
  memory := by decide
  pcBound := by decide
  waitFetched := by decide
  callSites := by decide
  faultPc := by
    intro f h
    obtain rfl : Fault.stackUnderflow 0x200 = f := Option.some.inj h
    decide
  faultGrounds := by
    intro f h
    obtain rfl : Fault.stackUnderflow 0x200 = f := Option.some.inj h
    show stopped.sp.val = 0
    decide

theorem witness_StepKeepsInvariant :
    (∃ t, State.reset.Inv ∧ step State.reset = .next t) ∧ (∃ t, waitingInCall.Inv ∧ step waitingInCall = .next t) ∧
    ∃ t, stopped.Inv ∧ step stopped = .next t :=
  ⟨⟨_, witness_Inv_reset, rfl⟩, ⟨_, witness_Inv_waiting, rfl⟩, ⟨_, witness_Inv_stopped, rfl⟩⟩

theorem witness_ReachableStatesHaveInvariant :
    ∃ s stepped results,
      Session.beforeReset.performAll [.reset, .load [0x00, 0xEE], .step, .tick] = .next (.live s stepped, results) :=
  ⟨_, _, _, rfl⟩

/-! ## Witnesses: faults -/

/-- The ends of the ranges: a run that ends at 0xFFF and one a byte longer, a run of none, and the first address
outside. -/
theorem witness_RangeCheckReportsLowestInvalid :
    InRange 0xFF0 16 ∧ InRange 0xFFFF 0 ∧ ¬ InRange 0xFF1 16 ∧ ¬ InRange 0x1000 1 ∧
    (0xFFF ≤ 0xFFF ∧ Memory.wf [(0xFFF, 1)]) ∧ 0xFFF < 0x1000 := by
  unfold InRange
  decide

theorem witness_FaultsAreExactlyTheTable :
    (∃ t, State.reset.fault = none ∧ exec .ret State.reset = .next t) ∧
    (∃ t, (State.reset.fault = none ∧ State.reset.kw = .notWaiting) ∧
      0xFFE < ({ State.reset with pc := 0xFFF } : State).pc.toNat ∧
      step { State.reset with pc := 0xFFF } = .next t) ∧
    (∃ t, (waiting [] [2]).fault = none ∧ (waiting [] [2]).kw ≠ .notWaiting ∧ step (waiting [] [2]) = .next t) :=
  ⟨⟨_, rfl, rfl⟩, ⟨_, by decide, by decide, rfl⟩, ⟨_, by decide, by decide, rfl⟩⟩

/-- A step that faults, for each of the three faults. -/
theorem witness_FaultsArePrecise :
    (∃ t f, (machine 0x00EE 0 []).fault = none ∧ step (machine 0x00EE 0 []) = .next t ∧ t.fault = some f) ∧
    (∃ t f, ({ machine 0x2200 0 [] with sp := 16 } : State).fault = none ∧
      step { machine 0x2200 0 [] with sp := 16 } = .next t ∧ t.fault = some f) ∧
    (∃ t f, (machine 0xFF55 0x0FF1 []).fault = none ∧ step (machine 0xFF55 0x0FF1 []) = .next t ∧ t.fault = some f) :=
  ⟨⟨_, _, rfl, rfl, rfl⟩, ⟨_, _, rfl, rfl, rfl⟩, ⟨_, _, rfl, rfl, rfl⟩⟩

theorem witness_FaultedMachineIsStopped : stopped.fault ≠ none := by decide

theorem witness_UnrecognizedIsNoOperation :
    (∀ row ∈ recognizedRows, row.covers 0xFFFF = false) ∧
    Instr.rnd 1 0xFF ∈ [.sys 0x123, .jpV0 0x123, .rnd 1 0xFF, .skp 1, .sknp 1, .unrecognized 0x5AB1] := by decide

/-! ## Witnesses: control transfer -/

/-- The reset state at a stack depth. -/
def atDepth (depth : Fin 17) : State := { State.reset with sp := depth }

theorem witness_RetPopsCallSiteAndAddsTwo :
    (atDepth 1).sp.val = (0 : Fin 16).val + 1 ∧ (atDepth 16).sp.val = (15 : Fin 16).val + 1 ∧ (atDepth 0).sp.val = 0 := by
  decide

theorem witness_CallPushesItsOwnAddress :
    (atDepth 0).sp.val = (0 : Fin 16).val ∧ (atDepth 15).sp.val = (15 : Fin 16).val ∧ (atDepth 16).sp.val = 16 := by
  decide

theorem witness_CallThenReturnComesBack :
    ∃ t, (atDepth 15).sp.val < 16 ∧ exec (.call 0x300) (atDepth 15) = .next t := ⟨_, by decide, rfl⟩

theorem witness_JumpToSelfIsTheEnd : (machine 0x1200 0 []).atSelfJump := ⟨0x200, by decide, by decide⟩

theorem witness_PcStaysEven :
    ∃ t, (called.evenPc ∧ ∀ i, called.nextInstr = some i → evenTarget i) ∧ step called = .next t := by
  refine ⟨_, ⟨⟨by decide, by decide⟩, fun i h => ?_⟩, rfl⟩
  have next : called.nextInstr = some .ret := by decide
  obtain rfl : Instr.ret = i := by simpa [next] using h
  trivial

/-! ## Witnesses: registers, index register and memory -/

theorem witness_ArithmeticWritesResultThenFlag : (0 : Reg) ≠ vf ∧ (14 : Reg) ≠ vf := by decide

theorem witness_ShiftsMoveVyAndKeepTheLostBit : (1 : Reg) ≠ vf := by decide

theorem witness_RegistersChangeOnlyByTheirWriters :
    ∃ t, exec (.addReg 1 2) State.reset = .next t ∧ ¬ mayWriteV (.addReg 1 2) 14 :=
  ⟨_, rfl, by unfold mayWriteV; decide⟩

theorem witness_BcdStoresThreeDigits :
    ((machine 0xF433 0xFFD []).mem.wf ∧ InRange (machine 0xF433 0xFFD []).baseAddress 3) ∧
    ¬ InRange (machine 0xF433 0xFFE []).baseAddress 3 := by
  unfold InRange
  decide

theorem witness_DumpStoresFirstRegisters :
    ((machine 0xFF55 0xFF0 []).mem.wf ∧ InRange (machine 0xFF55 0xFF0 []).baseAddress ((15 : Reg).val + 1)) ∧
    ((machine 0xF055 0xFFF []).mem.wf ∧ InRange (machine 0xF055 0xFFF []).baseAddress ((0 : Reg).val + 1)) ∧
    ¬ InRange (machine 0xFF55 0xFF1 []).baseAddress ((15 : Reg).val + 1) ∧
    ¬ InRange (machine 0xF055 0x1000 []).baseAddress ((0 : Reg).val + 1) := by
  unfold InRange
  decide

theorem witness_LoadReadsFirstRegisters :
    InRange (machine 0xFF65 0xFF0 []).baseAddress ((15 : Reg).val + 1) ∧
    ¬ InRange (machine 0xFF65 0xFF1 []).baseAddress ((15 : Reg).val + 1) := by
  unfold InRange
  decide

/-- A machine that stores two registers as the word `12 0A`. -/
def storing : State := machine 0xF155 0x20A [(0, 0x12), (1, 0x0A)]

theorem witness_LoadAfterDumpRestores :
    ∃ t, storing.mem.wf ∧ storing.fault = none ∧ exec (.storeRegs 1) storing = .next t ∧ t.fault = none :=
  ⟨_, by decide, rfl, rfl, rfl⟩

theorem witness_StoredCodeIsFetched :
    ∃ t, storing.mem.wf ∧ storing.fault = none ∧ storing.kw = .notWaiting ∧
      exec (.storeRegs 1) storing = .next t ∧ t.fault = none ∧ (1 : Reg).val = (0 : Reg).val + 1 ∧
      (1 : Reg).val ≤ (1 : Reg).val :=
  ⟨_, by decide, rfl, rfl, rfl, rfl, rfl, le_rfl⟩

/-- The bytes just below and just above the run; and an instruction that has no run. -/
theorem witness_MemoryChangesOnlyInTheStoredRun :
    (∀ b, b = 0x209 ∨ b = 0x20C → ∃ t, storing.mem.wf ∧ exec (.storeRegs 1) storing = .next t ∧
      ∀ a n, storedRun (.storeRegs 1) storing = some (a, n) → b < a ∨ a + n ≤ b) ∧
    ∃ t, storing.mem.wf ∧ exec .cls storing = .next t ∧
      ∀ a n, storedRun .cls storing = some (a, n) → 0x20A < a ∨ a + n ≤ 0x20A := by
  have run : storedRun (.storeRegs 1) storing = some (0x20A, 2) := by decide
  refine ⟨fun b hb => ⟨_, by decide, rfl, fun a n h => ?_⟩, _, by decide, rfl, fun a n h => nomatch h⟩
  obtain ⟨rfl, rfl⟩ : 0x20A = a ∧ 2 = n := by simpa [run] using h
  omega

theorem witness_StateChangesOnlyByItsWriters :
    ∃ t, exec (.ldImm 1 2) State.reset = .next t ∧ (∀ nnn, Instr.ldImm 1 2 ≠ .ldI nnn) ∧
      (∀ x, Instr.ldImm 1 2 ≠ .addI x) ∧ (∀ x, Instr.ldImm 1 2 ≠ .ldF x) ∧ (∀ nnn, Instr.ldImm 1 2 ≠ .call nnn) ∧
      Instr.ldImm 1 2 ≠ .ret ∧ Instr.ldImm 1 2 ≠ .cls ∧ (∀ x y n, Instr.ldImm 1 2 ≠ .drw x y n) ∧
      (∀ x, Instr.ldImm 1 2 ≠ .ldDtVx x) ∧ (∀ x, Instr.ldImm 1 2 ≠ .ldStVx x) ∧
      ∀ x, Instr.ldImm 1 2 ≠ .ldVxK x :=
  ⟨_, rfl, nofun, nofun, nofun, nofun, nofun, nofun, nofun, nofun, nofun, nofun⟩

/-! ## Witnesses: display -/

/-- No pixel is on after reset. -/
theorem display_reset (px : Fin 64) (py : Fin 32) : State.reset.display px py = false := by
  simp [State.display, State.reset, blankFramebuffer]

/-- A draw in range, of no row from the end of the 16-bit range too, and one out of range; a pixel the sprite lands on
that was on, one it does not land on, and a sprite that lands on no pixel that was on. -/
theorem witness_DrawTogglesTheSprite :
    (InRange (machine 0xD002 0xFFE []).baseAddress (2 : Fin 16).val ∧
      InRange (machine 0xD010 0xFFFF []).baseAddress (0 : Fin 16).val) ∧
    (SpriteBitAt (cornerLit 0xD011) 0 1 1 0 0 ∧ (cornerLit 0xD011).display 0 0 = true) ∧
    ¬ SpriteBitAt (cornerLit 0xD011) 0 1 1 1 0 ∧
    (∀ px py, SpriteBitAt State.reset 0 1 1 px py → State.reset.display px py = false) ∧
    ¬ InRange (machine 0xD003 0xFFE []).baseAddress (3 : Fin 16).val := by
  refine ⟨?_, ?_, ?_, fun px py _ => display_reset px py, ?_⟩
  · unfold InRange; decide
  · unfold SpriteBitAt; decide
  · unfold SpriteBitAt; decide
  · unfold InRange; decide

/-- A sprite bit that has wrapped on both axes: column 7 of row 1 from (63,31). -/
theorem witness_SpriteBitAt_wrapped :
    SpriteBitAt (machineWith 0xD012 0x300 [0xFF, 0x01] [(0, 0x3F), (1, 0x1F)]) 0 1 2 6 0 := by
  unfold SpriteBitAt
  decide

theorem witness_DrawTwiceRestoresTheFramebuffer :
    ∃ t, InRange (cornerLit 0xD011).baseAddress (1 : Fin 16).val ∧
      exec (.drw 0 1 1) (cornerLit 0xD011) = .next t := ⟨_, .inr (by decide), rfl⟩

/-! ## Witnesses: timers and keypad -/

/-- The lowest key newly down is the last one, 15; and no key newly down. -/
theorem witness_WaitResolvesToLowestNewKey :
    ((waiting [3] [3, 15]).fault = none ∧ (waiting [3] [3, 15]).kw = .waiting 5 ∧ NewlyDown (waiting [3] [3, 15]) 15 ∧
      ∀ lower : Reg, lower < 15 → ¬ NewlyDown (waiting [3] [3, 15]) lower) ∧
    ((waiting [3] [3]).fault = none ∧ (waiting [3] [3]).kw = .waiting 5 ∧ ∀ key, ¬ NewlyDown (waiting [3] [3]) key) := by
  unfold NewlyDown
  decide

/-- The same with the first key, 0. -/
theorem witness_WaitResolvesToKeyZero :
    NewlyDown (waiting [] [0, 9]) 0 ∧ ∀ lower : Reg, lower < 0 → ¬ NewlyDown (waiting [] [0, 9]) lower := by
  unfold NewlyDown
  decide

theorem witness_ResolvedWaitCompletes :
    ({ waiting [4] [4] with kw := .resolved } : State).fault = none ∧
    ({ waiting [4] [4] with kw := .resolved } : State).kw = .resolved := by decide

/-- A state for each row of the table. -/
theorem witness_KeyWaitMovesAsTheTable :
    (∃ t, (machine 0xF50A 0 []).fault = none ∧ step (machine 0xF50A 0 []) = .next t ∧
      (machine 0xF50A 0 []).nextInstr = some (.ldVxK 5)) ∧
    (∃ t, State.reset.fault = none ∧ step State.reset = .next t ∧ State.reset.kw = .notWaiting ∧
      ∀ x, State.reset.nextInstr ≠ some (.ldVxK x)) ∧
    (∃ t, step (waiting [3] [3, 15]) = .next t) ∧ (∃ t, step (waiting [3] [3]) = .next t) ∧
    ∃ t, step { waiting [4] [4] with kw := .resolved } = .next t := by
  refine ⟨⟨_, rfl, rfl, by decide⟩, ⟨_, rfl, rfl, rfl, ?_⟩, ⟨_, rfl⟩, ⟨_, rfl⟩, ⟨_, rfl⟩⟩
  have next : State.reset.nextInstr = some (.sys 0) := by decide
  simp [next]

theorem witness_WaitWithoutNewKeyNeverEnds :
    (waiting [4] [4]).fault = none ∧ (waiting [4] [4]).kw = .waiting 5 ∧ ∀ key, ¬ NewlyDown (waiting [4] [4]) key := by
  unfold NewlyDown
  decide

theorem witness_TickCountsDown :
    stopped.fault ≠ none ∧ State.reset.fault = none ∧ ({ State.reset with st := 1 } : State).st.toNat = 1 := by decide

theorem witness_BuzzerSoundsOnTheLastTick : ({ State.reset with st := 255 } : State).fault = none ∧ 254 < 256 := by decide

theorem witness_StepNeverCountsDown :
    ∃ t, step (machine 0x1200 0 []) = .next t ∧ (∀ x, (machine 0x1200 0 []).nextInstr ≠ some (.ldDtVx x)) ∧
      ∀ x, (machine 0x1200 0 []).nextInstr ≠ some (.ldStVx x) := by
  have next : (machine 0x1200 0 []).nextInstr = some (.jp 0x200) := by decide
  refine ⟨_, rfl, ?_, ?_⟩ <;> rw [next] <;> exact fun _ => nofun

theorem witness_SetKeysWritesTheKeypad : stopped.fault ≠ none ∧ State.reset.fault = none := by decide

theorem witness_KeypadIsReadOnlyByTheWait :
    ∃ t, (∀ x, Instr.skp 1 ≠ .ldVxK x) ∧ exec (.skp 1) State.reset = .next t := ⟨_, nofun, rfl⟩

/-! ## Witnesses: load and the host's operations -/

theorem witness_LoadCopiesTheProgram :
    stopped.fault ≠ none ∧
    (State.reset.fault = none ∧ 3584 < (List.replicate 3585 (0xAB : Byte)).length) ∧
    (State.reset.fault = none ∧ State.reset.mem.wf ∧ (List.replicate 3584 (0xAB : Byte)).length ≤ 3584 ∧
      3583 < (List.replicate 3584 (0xAB : Byte)).length) :=
  have length (n : Nat) : (List.replicate n (0xAB : Byte)).length = n := List.length_replicate
  ⟨by decide, ⟨rfl, by rw [length]; decide⟩, rfl, by decide, by rw [length], by rw [length]; decide⟩

theorem witness_LegalSequencesAreNeverRefused :
    legalSequence [] = true ∧ legalSequence [.reset, .load [0x12], .load [], .setKeys noKeys, .step, .tick, .reset] = true ∧
    legalSequence [.step] = false ∧ legalSequence [.reset, .step, .load []] = false := by decide

theorem witness_OnlyMeaninglessOperationsAreRefused :
    Session.beforeReset.perform .tick = .refused .operationBeforeReset ∧
    (Session.live State.reset true).perform (.load []) = .refused .loadAfterStep := ⟨rfl, rfl⟩

end Sys2Proof.Tests
end

section
/-! PROOFS. What each field of the state after `Reset` reads as (10_state.md R36). -/

namespace Sys2Proof.Machine

/-- `Reset` forgets the state before it (70_reset_and_hazards.md R290). -/
@[simp] theorem State.resetOperation_eq_reset (s : State) : s.resetOperation = State.reset := rfl

/-- The listed memory of the reset state is empty, so every address reads as unlisted. -/
theorem reset_mem_get (a : Nat) : State.reset.mem.get a = unlistedByte a := rfl

/-- The bounds of the font as R36 writes them. -/
theorem unlistedByte_eq (a : Nat) :
    unlistedByte a = if 0x050 ≤ a ∧ a ≤ 0x09F then Config.font.getD (a - 0x050) 0 else 0 := rfl

@[simp] theorem reset_v_get (r : Reg) : State.reset.v[r] = 0 := Vector.getElem_replicate r.isLt

@[simp] theorem reset_stack_get (slot : Fin 16) : State.reset.stack[slot] = 0 := Vector.getElem_replicate slot.isLt

@[simp] theorem noKeys_get (key : Reg) : noKeys[key] = false := Vector.getElem_replicate key.isLt

@[simp] theorem blankFramebuffer_get (px : Fin 64) (py : Fin 32) : blankFramebuffer[py][px] = false := by
  have row : blankFramebuffer[py] = Vector.replicate 64 false := Vector.getElem_replicate py.isLt
  rw [row]
  exact Vector.getElem_replicate px.isLt

/-- Settles O54: `Reset` answers the reset state, whose arrays are constant but for the font. -/
theorem resetSetsEveryField : Obligations.ResetSetsEveryField := by
  intro s
  rw [State.resetOperation_eq_reset]
  have memory (a : Nat) := (reset_mem_get a).trans (unlistedByte_eq a)
  have display (px : Fin 64) (py : Fin 32) : State.reset.display px py = false := blankFramebuffer_get px py
  exact ⟨fun a _ => memory a, reset_v_get, rfl, rfl, reset_stack_get, rfl, display, noKeys_get, rfl, rfl, rfl,
    noKeys_get, rfl⟩

end Sys2Proof.Machine
end

section
/-! PROOFS. The range check in the words of 20_memory.md R62, and the memory primitives of R63. -/

namespace Sys2Proof.Machine

open Sys2Proof.Claims

theorem lowestInvalid_of_inRange {a n : Nat} (h : InRange a n) : lowestInvalid a n = none :=
  (lowestInvalid_none a n).2 h

theorem lowestInvalid_of_not_inRange {a n : Nat} (h : ¬ InRange a n) : lowestInvalid a n = some (max a 0x1000) := by
  unfold InRange at h
  exact if_pos (by omega)

theorem memRead_ok (pc : Word) (kind : AccessKind) (m : Memory) {a : Nat} (h : a ≤ 0xFFF) :
    memRead pc kind m a = .ok (m.get a) :=
  if_neg (Nat.not_lt.2 h)

theorem memRead_error (pc : Word) (kind : AccessKind) (m : Memory) {a : Nat} (h : 0xFFF < a) :
    memRead pc kind m a = .error (.memOutOfRange pc a kind) :=
  if_pos h

theorem memWrite_ok (pc : Word) (m : Memory) {a : Nat} (b : Byte) (h : a ≤ 0xFFF) :
    memWrite pc m a b = .ok (m.set a b) :=
  if_neg (Nat.not_lt.2 h)

theorem memWrite_error (pc : Word) (m : Memory) {a : Nat} (b : Byte) (h : 0xFFF < a) :
    memWrite pc m a b = .error (.memOutOfRange pc a .write) :=
  if_pos h

/-- Settles O15: the range check from `lowestInvalid`, and a write within memory from `Memory.get_set`. -/
theorem rangeCheckReportsLowestInvalid : Obligations.RangeCheckReportsLowestInvalid := by
  intro pc kind m a n b
  refine ⟨fun inside => checkRange_ok pc kind a n (lowestInvalid_of_inRange inside),
    fun outside => checkRange_error pc kind a n (lowestInvalid_of_not_inRange outside),
    memRead_ok pc kind m, memRead_error pc kind m, fun valid wf => ?written, memWrite_error pc m b⟩
  case written =>
    refine ⟨m.set a b, memWrite_ok pc m b valid, ?_, fun c other => ?_⟩
    · rw [Memory.get_set wf, if_pos rfl]
    · rw [Memory.get_set wf, if_neg other]

end Sys2Proof.Machine
end

section
/-! PROOFS. The decoder beside the opcode map of 30_encoding.md R94, R95: the fields of a word that say which row its
instruction is of, and the word of what a word decodes to. -/

namespace Sys2Proof

variable {w v : Word}

/-! The row of the decoded instruction -/

/-- Where `op` is not 0, the decoder picks the instruction by `op`, by the low nibble where `op` is 5, 8 or 9, and by
the low byte where `op` is 0xE or 0xF (40_step_and_dispatch.md R122). -/
theorem rowNumber_decode_congr (op : fieldOp w = fieldOp v) (nonzero : fieldOp v ≠ 0x0#4)
    (nibble : fieldOp v ∈ [0x5#4, 0x8#4, 0x9#4] → fieldN w = fieldN v)
    (byte : fieldOp v ∈ [0xE#4, 0xF#4] → fieldNN w = fieldNN v) :
    (decode w).rowNumber = (decode v).rowNumber := by
  unfold decode
  rw [op]
  split
  case h_1 zero => exact absurd zero nonzero
  case h_6 five =>
    rw [nibble (by simp [five])]
    split <;> rfl
  case h_9 eight =>
    unfold decodeAlu
    rw [nibble (by simp [eight])]
    split <;> rfl
  case h_10 nine =>
    rw [nibble (by simp [nine])]
    split <;> rfl
  case h_15 fourteen =>
    rw [byte (by simp [fourteen])]
    split
    · rfl
    · split <;> rfl
  case h_16 =>
    have fifteen : fieldOp v = 0xF#4 := by
      simp only [imp_false] at *
      bv_omega
    unfold decodeF
    rw [byte (by simp [fifteen])]
    split <;> rfl
  all_goals rfl

/-- The two rows of format E fix the whole word; every other row fixes the fields the decoder looks at. -/
theorem recognizedRows_fix_fields : ∀ row ∈ recognizedRows,
    row.mask = 0xFFFF#16 ∨
      row.mask.extractLsb' 12 4 = 0xF#4 ∧ fieldOp row.value ≠ 0x0#4 ∧
        (fieldOp row.value ∈ [0x5#4, 0x8#4, 0x9#4] → row.mask.extractLsb' 0 4 = 0xF#4) ∧
        (fieldOp row.value ∈ [0xE#4, 0xF#4] → row.mask.extractLsb' 0 8 = 0xFF#8) := by
  decide

/-- A row's `match` value, the word whose fields are all 0, decodes to the row's own instruction. -/
theorem rowNumber_decode_value : ∀ row ∈ recognizedRows, (decode row.value).rowNumber = row.number := by
  decide

theorem OpcodeRow.covers_iff {row : OpcodeRow} : row.covers w = true ↔ w &&& row.mask = row.value := beq_iff_eq

/-- A row that covers a word is the row of the decoded instruction (R94). -/
theorem rowNumber_decode_of_covers {row : OpcodeRow} (mem : row ∈ recognizedRows) (covered : row.covers w = true) :
    (decode w).rowNumber = row.number := by
  rw [OpcodeRow.covers_iff] at covered
  rw [← rowNumber_decode_value row mem]
  obtain whole | ⟨op, nonzero, nibble, byte⟩ := recognizedRows_fix_fields row mem
  · have : w = row.value := by rwa [whole, show 0xFFFF#16 = BitVec.allOnes 16 from rfl, BitVec.and_allOnes] at covered
    rw [this]
  · exact rowNumber_decode_congr (fieldOp_of_mask covered op) nonzero (fun h => fieldN_of_mask covered (nibble h))
      (fun h => fieldNN_of_mask covered (byte h))

/-! The rows do not overlap -/

/-- Any two rows differ in a bit that both masks fix. -/
theorem recognizedRows_clash : ∀ row ∈ recognizedRows, ∀ other ∈ recognizedRows,
    row.value &&& other.mask = other.value &&& row.mask → row = other := by
  decide

/-- No two rows of the opcode map cover one word (R94). -/
theorem recognizedRows_disjoint {row other : OpcodeRow} (mem : row ∈ recognizedRows) (mem' : other ∈ recognizedRows)
    (covered : row.covers w = true) (covered' : other.covers w = true) : row = other := by
  rw [OpcodeRow.covers_iff] at covered covered'
  apply recognizedRows_clash row mem other mem'
  rw [← covered, ← covered', BitVec.and_assoc, BitVec.and_assoc, BitVec.and_comm row.mask]

/-! The word of the decoded instruction -/

theorem formatA_of_fields {op : BitVec 4} (h : fieldOp w = op) : formatA op (fieldNNN w) = w :=
  h ▸ formatA_fields w

theorem formatXI_of_fields {op : BitVec 4} {nn : Byte} (h : fieldOp w = op) (hnn : fieldNN w = nn) :
    formatXI op (fieldX w) nn = w :=
  h ▸ hnn ▸ formatXI_fields w

theorem formatXYN_of_fields {op n : BitVec 4} (h : fieldOp w = op) (hn : fieldN w = n) :
    formatXYN op (fieldX w) (fieldY w) n = w :=
  h ▸ hn ▸ formatXYN_fields w

theorem encode_decodeAlu (op : fieldOp w = 0x8#4) : encode (decodeAlu w) = w := by
  unfold decodeAlu
  split
  case h_10 => rfl
  all_goals exact formatXYN_of_fields op ‹_›

theorem encode_decodeF (op : fieldOp w = 0xF#4) : encode (decodeF w) = w := by
  unfold decodeF
  split
  case h_10 => rfl
  all_goals exact formatXI_of_fields op ‹_›

/-- Encoding what a word decodes to gives the word back: no bit is dropped. -/
theorem encode_decode (w : Word) : encode (decode w) = w := by
  unfold decode
  split
  case h_1 op =>
    split
    case isTrue cls => exact cls.symm
    case isFalse =>
      split
      case isTrue ret => exact ret.symm
      case isFalse => exact formatA_of_fields op
  case h_2 op | h_3 op | h_11 op | h_12 op => exact formatA_of_fields op
  case h_4 op | h_5 op | h_7 op | h_8 op | h_13 op => exact formatXI_of_fields op rfl
  case h_6 op | h_10 op =>
    split
    case isTrue n => exact formatXYN_of_fields op n
    case isFalse => rfl
  case h_9 op => exact encode_decodeAlu op
  case h_14 op => exact formatXYN_of_fields op rfl
  case h_15 op =>
    split
    case isTrue nn => exact formatXI_of_fields op nn
    case isFalse =>
      split
      case isTrue nn => exact formatXI_of_fields op nn
      case isFalse => rfl
  case h_16 =>
    apply encode_decodeF
    simp only [imp_false] at *
    bv_omega

end Sys2Proof

namespace Sys2Proof.Laws.EncodesItsRow

/-- The family EncodesItsRow as one lemma. -/
theorem statement_holds : ∀ i, Statement i
  | .cls => cls
  | .ret => ret
  | .jp nnn => jp nnn
  | .call nnn => call nnn
  | .seImm x nn => seImm x nn
  | .sneImm x nn => sneImm x nn
  | .seReg x y => seReg x y
  | .ldImm x nn => ldImm x nn
  | .addImm x nn => addImm x nn
  | .ldReg x y => ldReg x y
  | .orReg x y => orReg x y
  | .andReg x y => andReg x y
  | .xorReg x y => xorReg x y
  | .addReg x y => addReg x y
  | .subReg x y => subReg x y
  | .shrReg x y => shrReg x y
  | .subnReg x y => subnReg x y
  | .shlReg x y => shlReg x y
  | .sneReg x y => sneReg x y
  | .ldI nnn => ldI nnn
  | .drw x y n => drw x y n
  | .ldVxDt x => ldVxDt x
  | .ldVxK x => ldVxK x
  | .ldDtVx x => ldDtVx x
  | .ldStVx x => ldStVx x
  | .addI x => addI x
  | .ldF x => ldF x
  | .ldB x => ldB x
  | .storeRegs x => storeRegs x
  | .loadRegs x => loadRegs x
  | .sys nnn => sys nnn
  | .jpV0 nnn => jpV0 nnn
  | .rnd x nn => rnd x nn
  | .skp x => skp x
  | .sknp x => sknp x
  | .unrecognized w => unrecognized w

end Sys2Proof.Laws.EncodesItsRow

namespace Sys2Proof

/-! The words of no row -/

theorem Instr.rowNumber_pos (i : Instr) : 0 < i.rowNumber := by cases i <;> exact Nat.succ_pos _

/-- The numbers of the thirty rows are 1 to 30 (R95). -/
theorem exists_recognizedRow : ∀ n ≤ 30, 0 < n → ∃ row ∈ recognizedRows, row.number = n := by
  decide

/-- A word that decodes to a recognized instruction is covered by that instruction's row. -/
theorem exists_covers_of_recognized (h : (decode w).recognized = true) :
    ∃ row ∈ recognizedRows, row.covers w = true := by
  obtain ⟨row, mem, number⟩ := exists_recognizedRow _ (of_decide_eq_true h) (decode w).rowNumber_pos
  have := Laws.EncodesItsRow.statement_holds (decode w) row (List.mem_append_left _ mem) number
  rw [encode_decode] at this
  exact ⟨row, mem, this⟩

/-- A word that no row covers is unrecognized (R94). -/
theorem not_recognized_of_uncovered (h : ∀ row ∈ recognizedRows, row.covers w = false) :
    (decode w).recognized = false := by
  by_contra recognized
  obtain ⟨row, mem, covered⟩ := exists_covers_of_recognized (Bool.eq_true_of_not_eq_false recognized)
  exact absurd covered (by simp [h row mem])

end Sys2Proof

namespace Sys2Proof.Machine

/-- The six unrecognized instructions advance `pc` and change nothing else (40_step_and_dispatch.md R124). -/
theorem exec_of_not_recognized {i : Instr} (h : i.recognized = false) (s : State) :
    exec i s = .next { s with pc := s.pc + 2#16 } := by
  match i, h with
  | .sys _, _ | .jpV0 _, _ | .rnd _ _, _ | .skp _, _ | .sknp _, _ | .unrecognized _, _ => rfl

/-- Settles O3: the masks fix the fields the decoder looks at, any two rows clash in a bit both fix, and the word of a
recognized instruction is covered by its row. -/
theorem decodeFollowsOpcodeMap : Obligations.DecodeFollowsOpcodeMap := by
  intro w
  refine ⟨fun row mem other mem' => recognizedRows_disjoint mem mem',
    fun row mem => rowNumber_decode_of_covers mem, fun uncovered => ?_⟩
  have unrecognized := not_recognized_of_uncovered uncovered
  exact ⟨unrecognized, exec_of_not_recognized unrecognized⟩

end Sys2Proof.Machine
end

section
/-! PROOFS. The fetch of 40_step_and_dispatch.md R121: the word at `pc`, the fault above 0xFFE, and the first word of
a loaded program. -/

namespace Sys2Proof.Machine

open Sys2Proof.Claims

/-- Joining two bytes puts the first in the high half of the word (20_memory.md R64). -/
theorem wordOfBytes_eq_bigEndian (high low : Byte) : wordOfBytes high low = bigEndian high low := by
  apply BitVec.eq_of_toNat_eq
  have shifted : high.toNat <<< 8 ||| low.toNat = 256 * high.toNat + low.toNat := by
    rw [← Nat.shiftLeft_add_eq_or_of_lt low.isLt, Nat.shiftLeft_eq, Nat.mul_comm]
  have := high.isLt
  have := low.isLt
  rw [wordOfBytes, bigEndian, BitVec.toNat_append, shifted, BitVec.toNat_ofNat, Nat.mod_eq_of_lt (by omega)]

variable {s : State}

theorem fetch_eq_bigEndian (h : s.pc.toNat ≤ 0xFFE) :
    fetch s = .ok (bigEndian (s.mem.get s.pc.toNat) (s.mem.get (s.pc.toNat + 1))) := by
  rw [fetch_ok s h, wordOfBytes_eq_bigEndian]

/-- A step that can fetch is `exec` of what the bytes at `pc` decode to, on the state as it is (R120). -/
theorem step_of_fetched (hf : s.fault = none) (hk : s.kw = .notWaiting) (h : s.pc.toNat ≤ 0xFFE) :
    step s = exec (decode (bigEndian (s.mem.get s.pc.toNat) (s.mem.get (s.pc.toNat + 1)))) s := by
  rw [step_fetching hf hk, fetch_eq_bigEndian h]

theorem step_of_fetch_fault (hf : s.fault = none) (hk : s.kw = .notWaiting) (h : 0xFFE < s.pc.toNat) :
    step s = .next (s.raise (.memOutOfRange s.pc (max s.pc.toNat 0x1000) .fetch)) := by
  rw [step_fetching hf hk, fetch_error s h]

/-! A loaded program -/

/-- A program that fits is stored from 0x200 on, and nothing else changes (70_reset_and_hazards.md R292). -/
theorem load_of_fits (hf : s.fault = none) {bytes : List Byte} (fits : bytes.length ≤ 3584) :
    s.load bytes = ({ s with mem := s.mem.setRun 0x200 bytes }, .ok) := by
  have small : ¬ Config.progMax < bytes.length := Nat.not_lt.2 fits
  rw [State.load, if_neg (not_not.2 hf), if_neg small]
  rfl

/-- From 0x200 on a loaded memory reads as the program, and as 0 past its end, where no font byte is. -/
theorem load_reset_mem_get {bytes : List Byte} (fits : bytes.length ≤ 3584) (k : Nat) :
    (State.reset.load bytes).1.mem.get (0x200 + k) = bytes.getD k 0 := by
  rw [load_of_fits rfl fits, Memory.get_setRun reset_memory_wf (by omega)]
  by_cases inside : k < bytes.length
  · rw [if_pos (by omega), Nat.add_sub_cancel_left]
  · rw [if_neg (by omega), reset_mem_get, unlistedByte_eq, if_neg (by omega),
      List.getD_eq_default _ _ (Nat.not_lt.1 inside)]

theorem step_load_reset {bytes : List Byte} (fits : bytes.length ≤ 3584) :
    step (State.reset.load bytes).1 =
      exec (decode (bigEndian (bytes.getD 0 0) (bytes.getD 1 0))) (State.reset.load bytes).1 := by
  have first := load_reset_mem_get fits 0
  have second := load_reset_mem_get fits 1
  rw [load_of_fits rfl fits] at first second ⊢
  rw [← first, ← second]
  exact step_of_fetched rfl rfl (by decide : State.reset.pc.toNat ≤ 0xFFE)

/-- Settles O8: the range check passes exactly up to 0xFFE, and a loaded program reads back from 0x200. -/
theorem fetchReadsTwoBytesAtPc : Obligations.FetchReadsTwoBytesAtPc :=
  ⟨fun _ => fetch_eq_bigEndian, fun _ => step_of_fetch_fault, fun _ => step_load_reset⟩

end Sys2Proof.Machine
end

section
/-! PROOFS. The unrecognized words of 40_step_and_dispatch.md R124. -/

namespace Sys2Proof.Machine

/-- The constructors past row 30, with any operands, are unrecognized (30_encoding.md R96, R97). -/
theorem not_recognized_of_mem {nnn : Address} {x : Reg} {nn : Byte} {w : Word} {i : Instr}
    (h : i ∈ [.sys nnn, .jpV0 nnn, .rnd x nn, .skp x, .sknp x, .unrecognized w]) : i.recognized = false := by
  simp only [List.mem_cons, List.not_mem_nil, or_false] at h
  obtain rfl | rfl | rfl | rfl | rfl | rfl := h <;> rfl

/-- The frame of an advance, `pc` read as a number. -/
theorem exec_onlyPc_of_not_recognized {i : Instr} (h : i.recognized = false) (s : State) :
    ∃ t, exec i s = .next t ∧ t.pc.toNat = (s.pc.toNat + 2) % 65536 ∧ OnlyPc s t :=
  ⟨_, exec_of_not_recognized h s, BitVec.toNat_add s.pc 2#16, fun _ => rfl, rfl⟩

/-- Settles O19: a word that no row covers decodes to an unrecognized instruction, and each of those only advances. -/
theorem unrecognizedIsNoOperation : Obligations.UnrecognizedIsNoOperation :=
  ⟨fun _ uncovered => exec_of_not_recognized (not_recognized_of_uncovered uncovered),
    fun s _ _ _ _ _ mem => exec_onlyPc_of_not_recognized (not_recognized_of_mem mem) s⟩

end Sys2Proof.Machine
end

section
/-! PROOFS. The operand fields of the claims beside those of the decoder (30_encoding.md R91), and the encoding of a
row by its format (30_encoding.md R92, R94). -/

namespace Sys2Proof.Claims

variable (w : Word)

theorem bitsAt_lt (low width : Nat) : bitsAt w low width < 2 ^ width := Nat.mod_lt _ (Nat.two_pow_pos width)

theorem bitsAt_low (width : Nat) : bitsAt w 0 width = w.toNat % 2 ^ width := by
  rw [bitsAt, pow_zero, Nat.div_one]

theorem fieldX_eq_xOf : fieldX w = xOf w := by
  apply Fin.ext
  rw [fieldX_val]
  exact (Nat.mod_eq_of_lt (bitsAt_lt w 8 4)).symm

theorem fieldY_eq_yOf : fieldY w = yOf w := by
  apply Fin.ext
  rw [fieldY_val]
  exact (Nat.mod_eq_of_lt (bitsAt_lt w 4 4)).symm

theorem fieldNN_eq_nnOf : fieldNN w = nnOf w := by
  apply BitVec.eq_of_toNat_eq
  have low : (nnOf w).toNat = w.toNat % 2 ^ 8 := by
    rw [nnOf, BitVec.toNat_ofNat, Nat.mod_eq_of_lt (bitsAt_lt w 0 8), bitsAt_low]
  exact (fieldNN_toNat w).trans low.symm

theorem fieldNNN_eq_nnnOf : fieldNNN w = nnnOf w := by
  apply BitVec.eq_of_toNat_eq
  have low : (nnnOf w).toNat = w.toNat % 2 ^ 12 := by
    rw [nnnOf, BitVec.toNat_ofNat, Nat.mod_eq_of_lt (bitsAt_lt w 0 12), bitsAt_low]
  exact (fieldNNN_toNat w).trans low.symm

variable {value : Word}

/-- A row of format A, from the arm of the decoder that its `op` picks. -/
theorem encodedAs_formatA (i : Address → Instr)
    (arm : ∀ w, fieldOp w = value.extractLsb' 12 4 → decode w = i (fieldNNN w)) :
    EncodedAs value 0xF000 (fun w => i (nnnOf w)) := by
  intro w covered
  rw [arm w (fieldOp_of_mask covered rfl), fieldNNN_eq_nnnOf]

/-- A row of format XI, from the arm of the decoder that its `op` picks. -/
theorem encodedAs_formatXI (i : Reg → Byte → Instr)
    (arm : ∀ w, fieldOp w = value.extractLsb' 12 4 → decode w = i (fieldX w) (fieldNN w)) :
    EncodedAs value 0xF000 (fun w => i (xOf w) (nnOf w)) := by
  intro w covered
  rw [arm w (fieldOp_of_mask covered rfl), fieldX_eq_xOf, fieldNN_eq_nnOf]

/-- A row of format XY, from the arm of the decoder that its `op` and its low nibble pick. -/
theorem encodedAs_formatXY (i : Reg → Reg → Instr)
    (arm : ∀ w, fieldOp w = value.extractLsb' 12 4 → fieldN w = value.extractLsb' 0 4 →
      decode w = i (fieldX w) (fieldY w)) :
    EncodedAs value 0xF00F (fun w => i (xOf w) (yOf w)) := by
  intro w covered
  rw [arm w (fieldOp_of_mask covered rfl) (fieldN_of_mask covered rfl), fieldX_eq_xOf, fieldY_eq_yOf]

/-- A row that fixes the whole word. -/
theorem encodedAs_word {i : Instr} (h : decode value = i) : EncodedAs value 0xFFFF (fun _ => i) := by
  intro w covered
  have whole : w &&& 0xFFFF = w := BitVec.and_allOnes
  rw [← h, ← covered, whole]

end Sys2Proof.Claims
end

section
/-! PROOFS. Control transfer (41_control_transfer.md): each instruction's encoding, result, frame and fault. -/

namespace Sys2Proof.Machine

open Sys2Proof.Claims

theorem addressWord_toNat (nnn : Address) : (addressWord nnn).toNat = nnn.toNat :=
  BitVec.toNat_setWidth_of_le (by decide)

/-! Encodings (30_encoding.md R95, rows 2 to 7 and 19) -/

theorem ret_encodedAs : EncodedAs 0x00EE 0xFFFF (fun _ => .ret) := encodedAs_word rfl

theorem jp_encodedAs : EncodedAs 0x1000 0xF000 (fun w => .jp (nnnOf w)) :=
  encodedAs_formatA .jp fun w op => by rw [decode, op]; rfl

theorem call_encodedAs : EncodedAs 0x2000 0xF000 (fun w => .call (nnnOf w)) :=
  encodedAs_formatA .call fun w op => by rw [decode, op]; rfl

theorem seImm_encodedAs : EncodedAs 0x3000 0xF000 (fun w => .seImm (xOf w) (nnOf w)) :=
  encodedAs_formatXI .seImm fun w op => by rw [decode, op]; rfl

theorem sneImm_encodedAs : EncodedAs 0x4000 0xF000 (fun w => .sneImm (xOf w) (nnOf w)) :=
  encodedAs_formatXI .sneImm fun w op => by rw [decode, op]; rfl

theorem seReg_encodedAs : EncodedAs 0x5000 0xF00F (fun w => .seReg (xOf w) (yOf w)) :=
  encodedAs_formatXY .seReg fun w op n => by rw [decode, op, n]; rfl

theorem sneReg_encodedAs : EncodedAs 0x9000 0xF00F (fun w => .sneReg (xOf w) (yOf w)) :=
  encodedAs_formatXY .sneReg fun w op n => by rw [decode, op, n]; rfl

/-! The call stack -/

/-- `RET` at a depth above 0: the entry below `sp` is the call site (R140). -/
theorem exec_ret_pops {s : State} {slot : Fin 16} (depth : s.sp.val = slot.val + 1) :
    ∃ t, exec .ret s = .next t ∧ t.sp.val = slot.val ∧ t.pc.toNat = (s.stack[slot].toNat + 2) % 65536 ∧
      MemoryUnchanged s t ∧ t = { s with sp := t.sp, pc := t.pc } := by
  have below : s.sp.val - 1 = slot.val := by omega
  refine ⟨_, execRet_ok (by omega), below, ?_, fun _ => rfl, rfl⟩
  simp [below]

/-- `CALL nnn` at a depth below 16: the entry at `sp` becomes the call site (R142). -/
theorem exec_call_pushes {s : State} {slot : Fin 16} (nnn : Address) (depth : s.sp.val = slot.val) :
    ∃ t, exec (.call nnn) s = .next t ∧ t.stack[slot] = s.pc ∧
      (∀ other : Fin 16, other ≠ slot → t.stack[other] = s.stack[other]) ∧
      t.sp.val = slot.val + 1 ∧ t.pc.toNat = nnn.toNat ∧
      MemoryUnchanged s t ∧ t = { s with stack := t.stack, sp := t.sp, pc := t.pc } := by
  have room : s.sp.val < 16 := depth ▸ slot.isLt
  refine ⟨_, execCall_ok nnn room, ?_, fun other ne => ?_, congrArg (· + 1) depth, addressWord_toNat nnn,
    fun _ => rfl, rfl⟩
  · simp [depth]
  · have : s.sp.val ≠ other.val := fun eq => ne (Fin.ext (eq.symm.trans depth))
    exact Vector.getElem_set_ne room other.isLt this

/-- Settles O20: the word is fixed whole, and the two cases are those of the pop. -/
theorem retPopsCallSiteAndAddsTwo : Obligations.RetPopsCallSiteAndAddsTwo :=
  ⟨ret_encodedAs, fun _ _ => exec_ret_pops, fun _ => execRet_error⟩

/-- Settles O21: a jump writes `pc` alone. -/
theorem jpSetsPc : Obligations.JpSetsPc :=
  ⟨jp_encodedAs, fun _ nnn => ⟨_, rfl, addressWord_toNat nnn, fun _ => rfl, rfl⟩⟩

/-- Settles O22: the two cases are those of the push. -/
theorem callPushesItsOwnAddress : Obligations.CallPushesItsOwnAddress :=
  ⟨call_encodedAs, fun _ nnn _ => exec_call_pushes nnn, fun _ nnn => execCall_error nnn⟩

/-! The skips -/

/-- An instruction that skips when `c` holds moves `pc` by 4 or 2 and changes nothing else (R143 to R146). -/
theorem exec_skip {i : Instr} {s : State} {c : Bool} {width : Nat} (arm : exec i s = .next (s.skipWhen c))
    (distance : width = if c then 4 else 2) :
    ∃ t, exec i s = .next t ∧ OnlyPc s t ∧ t.pc.toNat = (s.pc.toNat + width) % 65536 := by
  rw [State.skipWhen_eq] at arm
  refine ⟨_, arm, ⟨fun _ => rfl, rfl⟩, ?_⟩
  subst distance
  cases c
  · exact BitVec.toNat_add s.pc 2#16
  · exact BitVec.toNat_add s.pc 4#16

/-- Settles O24: each skip's condition is the comparison that the claim writes. -/
theorem skipsAddFourOrTwo : Obligations.SkipsAddFourOrTwo :=
  ⟨seImm_encodedAs, sneImm_encodedAs, seReg_encodedAs, sneReg_encodedAs, fun _ _ _ _ =>
    ⟨exec_skip rfl (by simp), exec_skip rfl (by simp), exec_skip rfl (by simp), exec_skip rfl (by simp)⟩⟩

end Sys2Proof.Machine
end

section
/-! PROOFS. Immediate loads and the register-register group (42_immediate_and_alu.md): each instruction's encoding,
result, flag and frame. -/

namespace Sys2Proof.Machine

open Sys2Proof.Claims

/-! Encodings (30_encoding.md R95, rows 8 to 18) -/

theorem ldImm_encodedAs : EncodedAs 0x6000 0xF000 (fun w => .ldImm (xOf w) (nnOf w)) :=
  encodedAs_formatXI .ldImm fun w op => by rw [decode, op]; rfl

theorem addImm_encodedAs : EncodedAs 0x7000 0xF000 (fun w => .addImm (xOf w) (nnOf w)) :=
  encodedAs_formatXI .addImm fun w op => by rw [decode, op]; rfl

/-- A row of the register-register group, from the arm of its decoder that the low nibble picks. -/
theorem encodedAs_alu {value : Word} (i : Reg → Reg → Instr) (group : value.extractLsb' 12 4 = 0x8#4)
    (arm : ∀ w, fieldN w = value.extractLsb' 0 4 → decodeAlu w = i (fieldX w) (fieldY w)) :
    EncodedAs value 0xF00F (fun w => i (xOf w) (yOf w)) :=
  encodedAs_formatXY i fun w op n => by
    rw [group] at op
    rw [← arm w n, decode, op]
    rfl

theorem ldReg_encodedAs : EncodedAs 0x8000 0xF00F (fun w => .ldReg (xOf w) (yOf w)) :=
  encodedAs_alu .ldReg rfl fun w n => by rw [decodeAlu, n]; rfl

theorem orReg_encodedAs : EncodedAs 0x8001 0xF00F (fun w => .orReg (xOf w) (yOf w)) :=
  encodedAs_alu .orReg rfl fun w n => by rw [decodeAlu, n]; rfl

theorem andReg_encodedAs : EncodedAs 0x8002 0xF00F (fun w => .andReg (xOf w) (yOf w)) :=
  encodedAs_alu .andReg rfl fun w n => by rw [decodeAlu, n]; rfl

theorem xorReg_encodedAs : EncodedAs 0x8003 0xF00F (fun w => .xorReg (xOf w) (yOf w)) :=
  encodedAs_alu .xorReg rfl fun w n => by rw [decodeAlu, n]; rfl

theorem addReg_encodedAs : EncodedAs 0x8004 0xF00F (fun w => .addReg (xOf w) (yOf w)) :=
  encodedAs_alu .addReg rfl fun w n => by rw [decodeAlu, n]; rfl

theorem subReg_encodedAs : EncodedAs 0x8005 0xF00F (fun w => .subReg (xOf w) (yOf w)) :=
  encodedAs_alu .subReg rfl fun w n => by rw [decodeAlu, n]; rfl

theorem shrReg_encodedAs : EncodedAs 0x8006 0xF00F (fun w => .shrReg (xOf w) (yOf w)) :=
  encodedAs_alu .shrReg rfl fun w n => by rw [decodeAlu, n]; rfl

theorem subnReg_encodedAs : EncodedAs 0x8007 0xF00F (fun w => .subnReg (xOf w) (yOf w)) :=
  encodedAs_alu .subnReg rfl fun w n => by rw [decodeAlu, n]; rfl

theorem shlReg_encodedAs : EncodedAs 0x800E 0xF00F (fun w => .shlReg (xOf w) (yOf w)) :=
  encodedAs_alu .shlReg rfl fun w n => by rw [decodeAlu, n]; rfl

/-! Results as numbers (R166 to R171) -/

theorem byte_sub_toNat (a b : Byte) : (a - b).toNat = (256 + a.toNat - b.toNat) % 256 := by
  have := b.isLt
  rw [BitVec.toNat_sub]
  congr 1
  omega

theorem byte_ushiftRight_one_toNat (b : Byte) : (b >>> 1).toNat = b.toNat / 2 := by
  rw [BitVec.toNat_ushiftRight, Nat.shiftRight_one]

theorem byte_shiftLeft_one_toNat (b : Byte) : (b <<< 1).toNat = b.toNat * 2 % 256 := by
  rw [BitVec.toNat_shiftLeft, Nat.shiftLeft_eq, pow_one]

/-! Flags as numbers (R166 to R171) -/

theorem flagByte_decide_toNat (p : Prop) [Decidable p] : (flagByte (decide p)).toNat = if p then 1 else 0 := by
  by_cases h : p <;> simp [flagByte, h]

theorem carryFlag_toNat (a b : Byte) :
    (flagByte (carryFlag a b)).toNat = if a.toNat + b.toNat > 0xFF then 1 else 0 :=
  flagByte_decide_toNat _

theorem notBorrowFlag_toNat (a b : Byte) :
    (flagByte (notBorrowFlag a b)).toNat = if a.toNat ≥ b.toNat then 1 else 0 :=
  flagByte_decide_toNat _

/-- A bit of a byte, as a flag, is that binary digit of its number. -/
theorem flagByte_getLsbD_toNat (b : Byte) (j : Nat) : (flagByte (b.getLsbD j)).toNat = b.toNat / 2 ^ j % 2 := by
  rw [BitVec.getLsbD, Nat.testBit_eq_decide_div_mod_eq, flagByte_decide_toNat]
  split <;> omega

theorem lowBitFlag_toNat (b : Byte) : (flagByte (lowBitFlag b)).toNat = b.toNat % 2 := by
  rw [lowBitFlag, flagByte_getLsbD_toNat, pow_zero, Nat.div_one]

/-- Above bit 7 a byte has no more digits. -/
theorem highBitFlag_toNat (b : Byte) : (flagByte (highBitFlag b)).toNat = b.toNat / 128 := by
  have := b.isLt
  rw [highBitFlag, flagByte_getLsbD_toNat]
  omega

/-! The two shapes of instruction -/

/-- An instruction that writes `Vx` and advances: `P` is what the claim says of the register written. -/
theorem exec_writesV {i : Instr} {s : State} {x : Reg} {b : Byte} {P : State → Prop}
    (arm : exec i s = .next (s.writeV x b).advance) (result : ∀ t : State, t.v[x] = b → P t) :
    ∃ t, exec i s = .next t ∧ P t ∧ t.pc.toNat = (s.pc.toNat + 2) % 65536 ∧
      RegistersUnchangedBut x s t ∧ OnlyRegistersAndPc s t :=
  ⟨_, arm, result _ (s.readV_writeV_same x b), BitVec.toNat_add s.pc 2#16,
    fun _ other => s.readV_writeV_other x b other, fun _ => rfl, rfl⟩

/-- An instruction that writes `Vx`, then the flag, and advances: the flag remains where both go to `VF` (R172). -/
theorem exec_writesVThenFlag {i : Instr} {s : State} {x : Reg} {b : Byte} {flag : Bool} {r f : Nat}
    (arm : exec i s = .next ((s.writeV x b).writeFlag flag).advance)
    (result : b.toNat = r) (flagged : (flagByte flag).toNat = f) :
    ∃ t, exec i s = .next t ∧ (x ≠ vf → t.v[x].toNat = r) ∧ t.v[vf].toNat = f ∧
      t.pc.toNat = (s.pc.toNat + 2) % 65536 ∧ RegistersUnchangedButFlag x s t ∧ OnlyRegistersAndPc s t := by
  have beneathFlag {y : Reg} (other : y ≠ vf) :
      ((s.writeV x b).writeFlag flag).v[y] = (s.writeV x b).v[y] :=
    (s.writeV x b).readV_writeV_other vf (flagByte flag) other
  refine ⟨_, arm, fun notFlag => ?result, ?flag, BitVec.toNat_add s.pc 2#16, fun y other notFlag => ?frame,
    fun _ => rfl, rfl⟩
  case result =>
    have written : (s.writeV x b).v[x] = b := s.readV_writeV_same x b
    exact (congrArg BitVec.toNat ((beneathFlag notFlag).trans written)).trans result
  case flag =>
    exact (congrArg BitVec.toNat ((s.writeV x b).readV_writeV_same vf (flagByte flag))).trans flagged
  case frame => exact (beneathFlag notFlag).trans (s.readV_writeV_other x b other)

/-- Settles O29: result and flag are those of the old registers, and the flag is written last. -/
theorem arithmeticWritesResultThenFlag : Obligations.ArithmeticWritesResultThenFlag :=
  ⟨addReg_encodedAs, subReg_encodedAs, subnReg_encodedAs, fun _ _ _ =>
    ⟨exec_writesVThenFlag rfl (BitVec.toNat_add _ _) (carryFlag_toNat _ _),
      exec_writesVThenFlag rfl (byte_sub_toNat _ _) (notBorrowFlag_toNat _ _),
      exec_writesVThenFlag rfl (byte_sub_toNat _ _) (notBorrowFlag_toNat _ _)⟩⟩

/-- Settles O30: result and flag are those of the old `Vy`, and the flag is written last. -/
theorem shiftsMoveVyAndKeepTheLostBit : Obligations.ShiftsMoveVyAndKeepTheLostBit :=
  ⟨shrReg_encodedAs, shlReg_encodedAs, fun _ _ _ =>
    ⟨exec_writesVThenFlag rfl (byte_ushiftRight_one_toNat _) (lowBitFlag_toNat _),
      exec_writesVThenFlag rfl (byte_shiftLeft_one_toNat _) (highBitFlag_toNat _)⟩⟩

/-- Settles O27: both forms write `Vx` alone. -/
theorem immediateFormsWriteVx : Obligations.ImmediateFormsWriteVx :=
  ⟨ldImm_encodedAs, addImm_encodedAs, fun s x nn =>
    ⟨exec_writesV rfl fun _ written => written,
      exec_writesV rfl fun _ written => (congrArg BitVec.toNat written).trans (BitVec.toNat_add s.v[x] nn)⟩⟩

/-- Settles O28: all four write `Vx` alone, and the logic operations work bit by bit. -/
theorem moveAndLogicWriteNoFlag : Obligations.MoveAndLogicWriteNoFlag :=
  ⟨ldReg_encodedAs, orReg_encodedAs, andReg_encodedAs, xorReg_encodedAs, fun s x y =>
    ⟨exec_writesV rfl fun _ written => written,
      exec_writesV rfl fun _ written _ => by rw [written]; exact BitVec.getLsbD_or,
      exec_writesV rfl fun _ written _ => by rw [written]; exact BitVec.getLsbD_and,
      exec_writesV rfl fun _ written _ => by rw [written]; exact BitVec.getLsbD_xor⟩⟩

end Sys2Proof.Machine
end

section
/-! PROOFS. The index register and the memory instructions (43_index_and_memory.md): each one's encoding, result,
frame and fault. -/

namespace Sys2Proof.Machine

open Sys2Proof.Claims

/-! Encodings (30_encoding.md R95, rows 20 and 26 to 30) -/

/-- A row of the register-function group, from the arm of its decoder that the low byte picks. -/
theorem encodedAs_formatXF {value : Word} (i : Reg → Instr) (group : value.extractLsb' 12 4 = 0xF#4)
    (arm : ∀ w, fieldNN w = value.extractLsb' 0 8 → decodeF w = i (fieldX w)) :
    EncodedAs value 0xF0FF (fun w => i (xOf w)) := by
  intro w covered
  have op : fieldOp w = 0xF#4 := (fieldOp_of_mask covered rfl).trans group
  have dispatch : decode w = decodeF w := by rw [decode, op]; rfl
  rw [dispatch, arm w (fieldNN_of_mask covered rfl), fieldX_eq_xOf]

theorem ldI_encodedAs : EncodedAs 0xA000 0xF000 (fun w => .ldI (nnnOf w)) :=
  encodedAs_formatA .ldI fun w op => by rw [decode, op]; rfl

theorem addI_encodedAs : EncodedAs 0xF01E 0xF0FF (fun w => .addI (xOf w)) :=
  encodedAs_formatXF .addI rfl fun w nn => by rw [decodeF, nn]; rfl

theorem ldF_encodedAs : EncodedAs 0xF029 0xF0FF (fun w => .ldF (xOf w)) :=
  encodedAs_formatXF .ldF rfl fun w nn => by rw [decodeF, nn]; rfl

theorem ldB_encodedAs : EncodedAs 0xF033 0xF0FF (fun w => .ldB (xOf w)) :=
  encodedAs_formatXF .ldB rfl fun w nn => by rw [decodeF, nn]; rfl

theorem storeRegs_encodedAs : EncodedAs 0xF055 0xF0FF (fun w => .storeRegs (xOf w)) :=
  encodedAs_formatXF .storeRegs rfl fun w nn => by rw [decodeF, nn]; rfl

theorem loadRegs_encodedAs : EncodedAs 0xF065 0xF0FF (fun w => .loadRegs (xOf w)) :=
  encodedAs_formatXF .loadRegs rfl fun w nn => by rw [decodeF, nn]; rfl

/-! Runs of bytes -/

theorem Memory.get_setRun_inside {m : Memory} (wf : m.wf) {a k : Nat} {bs : List Byte}
    (fits : a + bs.length ≤ 0x1000) (h : k < bs.length) : (m.setRun a bs).get (a + k) = bs.getD k 0 := by
  rw [Memory.get_setRun wf fits, if_pos (by omega), Nat.add_sub_cancel_left]

theorem Memory.get_setRun_outside {m : Memory} (wf : m.wf) {a b : Nat} {bs : List Byte}
    (fits : a + bs.length ≤ 0x1000) (h : b < a ∨ a + bs.length ≤ b) : (m.setRun a bs).get b = m.get b := by
  rw [Memory.get_setRun wf fits, if_neg (by omega)]

/-- An instruction that stores a run of `n` bytes from `I` and advances. -/
theorem exec_storesRun {i : Instr} {s : State} {n : Nat} {bs : List Byte} (wf : s.mem.wf)
    (inside : InRange s.baseAddress n) (length : bs.length = n) (nonempty : n ≠ 0)
    (arm : exec i s = .next { s with mem := s.mem.setRun s.baseAddress bs }.advance) :
    ∃ t, exec i s = .next t ∧ (∀ k < n, t.mem.get (s.baseAddress + k) = bs.getD k 0) ∧
      MemoryUnchangedOutside s.baseAddress n s t ∧ t.pc.toNat = (s.pc.toNat + 2) % 65536 ∧
      t = { s with mem := t.mem, pc := t.pc } := by
  subst length
  have fits : s.baseAddress + bs.length ≤ 0x1000 := inside.resolve_left nonempty
  exact ⟨_, arm, fun _ => Memory.get_setRun_inside wf fits, fun _ => Memory.get_setRun_outside wf fits,
    BitVec.toNat_add s.pc 2#16, rfl⟩

/-! The bytes stored -/

/-- The digits of a byte are below 10, so none is cut to its width. -/
theorem bcdDigits_getD_toNat (b : Byte) :
    ((bcdDigits b).getD 0 0).toNat = b.toNat / 100 ∧ ((bcdDigits b).getD 1 0).toNat = b.toNat / 10 % 10 ∧
      ((bcdDigits b).getD 2 0).toNat = b.toNat % 10 := by
  have := b.isLt
  exact ⟨Nat.mod_eq_of_lt (by omega : b.toNat / 100 < 256), Nat.mod_eq_of_lt (by omega : b.toNat / 10 % 10 < 256),
    Nat.mod_eq_of_lt (by omega : b.toNat % 10 < 256)⟩

/-- `LD B,Vx` within memory (R193). -/
theorem exec_ldB_inRange {s : State} (x : Reg) (wf : s.mem.wf) (inside : InRange s.baseAddress 3) :
    ∃ t, exec (.ldB x) s = .next t ∧
      (t.mem.get s.baseAddress).toNat = s.v[x].toNat / 100 ∧
      (t.mem.get (s.baseAddress + 1)).toNat = s.v[x].toNat / 10 % 10 ∧
      (t.mem.get (s.baseAddress + 2)).toNat = s.v[x].toNat % 10 ∧
      MemoryUnchangedOutside s.baseAddress 3 s t ∧
      t.pc.toNat = (s.pc.toNat + 2) % 65536 ∧ t = { s with mem := t.mem, pc := t.pc } := by
  obtain ⟨t, next, stored, frame⟩ := exec_storesRun (i := .ldB x) (bs := bcdDigits s.v[x]) wf inside rfl
    (by decide) (execLdB_ok x (lowestInvalid_of_inRange inside))
  obtain ⟨hundreds, tens, ones⟩ := bcdDigits_getD_toNat s.v[x]
  refine ⟨t, next, ?_, ?_, ?_, frame⟩
  · exact (congrArg BitVec.toNat (stored 0 (by decide))).trans hundreds
  · exact (congrArg BitVec.toNat (stored 1 (by decide))).trans tens
  · exact (congrArg BitVec.toNat (stored 2 (by decide))).trans ones

/-- `LD [I],Vx` within memory (R194). -/
theorem exec_storeRegs_inRange {s : State} (x : Reg) (wf : s.mem.wf) (inside : InRange s.baseAddress (x.val + 1)) :
    ∃ t, exec (.storeRegs x) s = .next t ∧
      (∀ r : Reg, r.val ≤ x.val → t.mem.get (s.baseAddress + r.val) = s.v[r]) ∧
      MemoryUnchangedOutside s.baseAddress (x.val + 1) s t ∧
      t.pc.toNat = (s.pc.toNat + 2) % 65536 ∧ t = { s with mem := t.mem, pc := t.pc } := by
  obtain ⟨t, next, stored, frame⟩ := exec_storesRun (i := .storeRegs x) wf inside (firstRegisters_length s.v x)
    x.val.succ_ne_zero (execStoreRegs_ok x (lowestInvalid_of_inRange inside))
  refine ⟨t, next, fun r le => ?_, frame⟩
  rw [stored r.val (Nat.lt_succ_of_le le), firstRegisters_getD s.v x r le]

/-! The registers loaded -/

/-- `LD Vx,[I]` within memory (R195). -/
theorem exec_loadRegs_inRange {s : State} (x : Reg) (inside : InRange s.baseAddress (x.val + 1)) :
    ∃ t, exec (.loadRegs x) s = .next t ∧
      (∀ r : Reg, r.val ≤ x.val → t.v[r] = s.mem.get (s.baseAddress + r.val)) ∧
      (∀ r : Reg, x.val < r.val → t.v[r] = s.v[r]) ∧
      t.pc.toNat = (s.pc.toNat + 2) % 65536 ∧ OnlyRegistersAndPc s t := by
  have loaded := loadFirstRegisters_get s.v 0 (runBytes s.mem s.baseAddress (x.val + 1))
  simp only [runBytes_length] at loaded
  refine ⟨_, execLoadRegs_ok x (lowestInvalid_of_inRange inside), fun r le => ?loaded, fun r lt => ?above,
    BitVec.toNat_add s.pc 2#16, fun _ => rfl, rfl⟩
  case loaded =>
    refine (loaded r).trans ?_
    rw [if_pos (by omega), Nat.sub_zero, runBytes_getD s.mem s.baseAddress (x.val + 1) (by omega)]
  case above =>
    refine (loaded r).trans ?_
    rw [if_neg (by omega)]

/-! The index register -/

/-- An instruction that writes `I` and advances. -/
theorem exec_writesI {i : Instr} {s : State} {w : Word} {n : Nat} (arm : exec i s = .next { s with i := w }.advance)
    (result : w.toNat = n) :
    ∃ t, exec i s = .next t ∧ t.i.toNat = n ∧ t.pc.toNat = (s.pc.toNat + 2) % 65536 ∧ OnlyIndexAndPc s t :=
  ⟨_, arm, result, BitVec.toNat_add s.pc 2#16, fun _ => rfl, rfl⟩

theorem index_add_toNat (w : Word) (b : Byte) : (w + b.zeroExtend 16).toNat = (w.toNat + b.toNat) % 65536 := by
  rw [BitVec.toNat_add, BitVec.zeroExtend, BitVec.toNat_setWidth_of_le (by decide)]

/-- The font address of any byte fits its word (R192). -/
theorem fontAddress_toNat (b : Byte) : (fontAddress b).toNat = 0x050 + 5 * b.toNat := by
  have := b.isLt
  exact Nat.mod_eq_of_lt (by omega : 0x050 + 5 * b.toNat < 65536)

/-- Settles O33: the run stored is the three digits. -/
theorem bcdStoresThreeDigits : Obligations.BcdStoresThreeDigits :=
  ⟨ldB_encodedAs, fun _ => exec_ldB_inRange, fun _ x outside =>
    execLdB_error x (lowestInvalid_of_not_inRange outside)⟩

/-- Settles O34: the run stored is the first registers. -/
theorem dumpStoresFirstRegisters : Obligations.DumpStoresFirstRegisters :=
  ⟨storeRegs_encodedAs, fun _ => exec_storeRegs_inRange, fun _ x outside =>
    execStoreRegs_error x (lowestInvalid_of_not_inRange outside)⟩

/-- Settles O35: the run loaded is what memory holds from `I`. -/
theorem loadReadsFirstRegisters : Obligations.LoadReadsFirstRegisters :=
  ⟨loadRegs_encodedAs, fun _ => exec_loadRegs_inRange, fun _ x outside =>
    execLoadRegs_error x (lowestInvalid_of_not_inRange outside)⟩

/-- Settles O32: all three write `I` alone. -/
theorem indexWritersSetI : Obligations.IndexWritersSetI :=
  ⟨ldI_encodedAs, addI_encodedAs, ldF_encodedAs, fun s x nnn =>
    ⟨exec_writesI rfl (addressWord_toNat nnn), exec_writesI rfl (index_add_toNat s.i s.v[x]),
      exec_writesI rfl (fontAddress_toNat s.v[x])⟩⟩

end Sys2Proof.Machine
end

section
/-! PROOFS. The display instructions (44_display.md): each one's encoding, the pixels and the flag it leaves, its frame
and its fault. -/

namespace Sys2Proof.Machine

open Sys2Proof.Claims

/-! Encodings (30_encoding.md R95, rows 1 and 21) -/

theorem fieldN_toFin_eq_nOf (w : Word) : (fieldN w).toFin = nOf w := by
  apply Fin.ext
  have low : (nOf w).val = w.toNat % 2 ^ 4 := by
    rw [← bitsAt_low]
    exact Nat.mod_eq_of_lt (bitsAt_lt w 0 4)
  exact (fieldN_toNat w).trans low.symm

theorem cls_encodedAs : EncodedAs 0x00E0 0xFFFF (fun _ => .cls) := encodedAs_word rfl

theorem drw_encodedAs : EncodedAs 0xD000 0xF000 (fun w => .drw (xOf w) (yOf w) (nOf w)) := by
  intro w covered
  have op : fieldOp w = 0xD#4 := fieldOp_of_mask covered rfl
  have arm : decode w = .drw (fieldX w) (fieldY w) (fieldN w).toFin := by rw [decode, op]; rfl
  rw [arm, fieldX_eq_xOf, fieldY_eq_yOf, fieldN_toFin_eq_nOf]

/-- Settles O40: the framebuffer left is the blank one. -/
theorem clsTurnsEveryCellOff : Obligations.ClsTurnsEveryCellOff :=
  ⟨cls_encodedAs, fun s => ⟨_, rfl, blankFramebuffer_get, BitVec.toNat_add s.pc 2#16, fun _ => rfl, rfl⟩⟩

/-! The pixels a sprite lands on -/

/-- The place `d` steps from the start, wrapped, is the one whose distance from the start on the ring is `d`. -/
theorem eq_ofNat_add_iff {size : Nat} [NeZero size] {start d : Nat} (p : Fin size) (hs : start < size)
    (hd : d < size) : p = Fin.ofNat size (start + d) ↔ (p.val + size - start) % size = d := by
  have hp := p.isLt
  rw [Fin.ext_iff, Fin.val_ofNat]
  have ahead : (start + d) % size = if start + d < size then start + d else start + d - size := by
    split
    · exact Nat.mod_eq_of_lt ‹_›
    · rw [Nat.mod_eq_sub_mod (by omega), Nat.mod_eq_of_lt (by omega)]
  have back : (p.val + size - start) % size = if p.val < start then p.val + size - start else p.val - start := by
    split
    · exact Nat.mod_eq_of_lt (by omega)
    · rw [Nat.mod_eq_sub_mod (by omega), Nat.mod_eq_of_lt (by omega)]
      omega
  rw [ahead, back]
  split <;> split <;> omega

/-- The cells that `DRW` plots are those that a set bit of its sprite lands on, in the claim's words (R212). -/
theorem mem_spriteCells_iff_spriteBitAt (s : State) (x y : Reg) (n : Fin 16) (px : Fin 64) (py : Fin 32) :
    (px, py) ∈ spriteCells (spriteColumn s.v[x]) (spriteRow s.v[y]) 0 (runBytes s.mem s.baseAddress n.val) ↔
      SpriteBitAt s x y n px py := by
  have left : spriteColumn s.v[x] < 64 := Nat.mod_lt _ (by decide)
  have top : spriteRow s.v[y] < 32 := Nat.mod_lt _ (by decide)
  simp only [mem_spriteCells, runBytes_length, Nat.zero_add]
  constructor
  · rintro ⟨r, hr, c, hc, bit, hx, hy⟩
    rw [runBytes_getD _ _ _ hr] at bit
    obtain rfl := (eq_ofNat_add_iff px left (by omega)).1 hx
    obtain rfl := (eq_ofNat_add_iff py top (by omega)).1 hy
    exact ⟨hr, hc, bit⟩
  · rintro ⟨hr, hc, bit⟩
    refine ⟨_, hr, _, hc, ?_, (eq_ofNat_add_iff px left (by omega)).2 rfl,
      (eq_ofNat_add_iff py top (by omega)).2 rfl⟩
    rwa [runBytes_getD _ _ _ hr]

theorem runBytes_length_le_32 (m : Memory) (a : Nat) (n : Fin 16) : (runBytes m a n.val).length ≤ 32 := by
  rw [runBytes_length]
  omega

section
variable {s : State} {x y : Reg} {n : Fin 16} {px : Fin 64} {py : Fin 32}

theorem drawn_pixel_of_spriteBitAt (h : SpriteBitAt s x y n px py) :
    (drawn x y n s).1.pixel px py = !s.fb.pixel px py := by
  rw [drawn, (drawSprite_spec _ _ _ _ (runBytes_length_le_32 ..)).1,
    decide_eq_true ((mem_spriteCells_iff_spriteBitAt ..).2 h), Bool.xor_true]

theorem drawn_pixel_of_not_spriteBitAt (h : ¬ SpriteBitAt s x y n px py) :
    (drawn x y n s).1.pixel px py = s.fb.pixel px py := by
  rw [drawn, (drawSprite_spec _ _ _ _ (runBytes_length_le_32 ..)).1,
    decide_eq_false (mt (mem_spriteCells_iff_spriteBitAt ..).1 h), Bool.xor_false]

theorem drawn_collides_iff :
    (drawn x y n s).2 = true ↔ ∃ px py, SpriteBitAt s x y n px py ∧ s.fb.pixel px py = true := by
  rw [drawn, (drawSprite_spec _ _ _ _ (runBytes_length_le_32 ..)).2, List.any_eq_true, Prod.exists]
  simp only [mem_spriteCells_iff_spriteBitAt]

end

/-- `DRW Vx,Vy,n` within memory (R211). The flag is written last, so it is what `VF` holds when `x` or `y` is 15. -/
theorem exec_drw_inRange {s : State} (x y : Reg) (n : Fin 16) (inside : InRange s.baseAddress n.val) :
    ∃ t, exec (.drw x y n) s = .next t ∧
      (∀ px py, SpriteBitAt s x y n px py → t.display px py = !s.display px py) ∧
      (∀ px py, ¬ SpriteBitAt s x y n px py → t.display px py = s.display px py) ∧
      ((∃ px py, SpriteBitAt s x y n px py ∧ s.display px py = true) → t.v[vf] = 1) ∧
      ((∀ px py, SpriteBitAt s x y n px py → s.display px py = false) → t.v[vf] = 0) ∧
      RegistersUnchangedBut vf s t ∧ t.pc.toNat = (s.pc.toNat + 2) % 65536 ∧
      MemoryUnchanged s t ∧ t = { s with fb := t.fb, v := t.v, pc := t.pc } := by
  have flag := s.readV_writeV_same vf (flagByte (drawn x y n s).2)
  refine ⟨_, execDrw_ok x y n (lowestInvalid_of_inRange inside), fun _ _ => drawn_pixel_of_spriteBitAt,
    fun _ _ => drawn_pixel_of_not_spriteBitAt, fun hit => ?collision, fun clear => ?noCollision,
    fun _ => s.readV_writeV_other vf _, BitVec.toNat_add s.pc 2#16, fun _ => rfl, rfl⟩
  case collision => exact flag.trans (congrArg flagByte (drawn_collides_iff.2 hit))
  case noCollision =>
    have missed : (drawn x y n s).2 = false := by
      rw [← Bool.not_eq_true, drawn_collides_iff]
      rintro ⟨px, py, bit, on⟩
      exact Bool.false_ne_true ((clear px py bit).symm.trans on)
    exact flag.trans (congrArg flagByte missed)

/-- Settles O41: `DRW` draws the cells its set bits land on, or its read of the sprite raises. -/
theorem drawTogglesTheSprite : Obligations.DrawTogglesTheSprite :=
  ⟨drw_encodedAs, fun _ => exec_drw_inRange, fun _ x y n outside =>
    execDrw_error x y n (lowestInvalid_of_not_inRange outside)⟩

/-! Drawing twice -/

/-- Every pixel is turned over the same number of times, none or twice (R213). -/
theorem drawSprite_drawSprite (fb : Framebuffer) (x0 y0 : Nat) {bytes : List Byte} (h : bytes.length ≤ 32) :
    (drawSprite (drawSprite fb x0 y0 bytes).1 x0 y0 bytes).1 = fb := by
  refine Framebuffer.ext_pixel fun px py => ?_
  rw [(drawSprite_spec _ x0 y0 bytes h).1, (drawSprite_spec fb x0 y0 bytes h).1, Bool.xor_assoc, Bool.xor_self,
    Bool.xor_false]

/-- Settles O42: with the registers put back, the second draw plots the sprite of the first on what it left. -/
theorem drawTwiceRestoresTheFramebuffer : Obligations.DrawTwiceRestoresTheFramebuffer := by
  intro s t x y n inside first
  have within := lowestInvalid_of_inRange inside
  obtain rfl := Host.Outcome.next.inj ((execDrw_ok x y n within).symm.trans first)
  exact ⟨_, execDrw_ok x y n within, drawSprite_drawSprite s.fb _ _ (runBytes_length_le_32 ..)⟩

end Sys2Proof.Machine
end

section
/-! PROOFS. Timers and keypad (45_timers_and_keypad.md): the timer instructions, `Tick` and `SetKeys`, the key-wait
and its table, and that no other instruction reads the keypad. -/

namespace Sys2Proof.Machine

open Sys2Proof.Claims

/-! Encodings (30_encoding.md R95, rows 22 to 25) -/

theorem ldVxDt_encodedAs : EncodedAs 0xF007 0xF0FF (fun w => .ldVxDt (xOf w)) :=
  encodedAs_formatXF .ldVxDt rfl fun w nn => by rw [decodeF, nn]; rfl

theorem ldVxK_encodedAs : EncodedAs 0xF00A 0xF0FF (fun w => .ldVxK (xOf w)) :=
  encodedAs_formatXF .ldVxK rfl fun w nn => by rw [decodeF, nn]; rfl

theorem ldDtVx_encodedAs : EncodedAs 0xF015 0xF0FF (fun w => .ldDtVx (xOf w)) :=
  encodedAs_formatXF .ldDtVx rfl fun w nn => by rw [decodeF, nn]; rfl

theorem ldStVx_encodedAs : EncodedAs 0xF018 0xF0FF (fun w => .ldStVx (xOf w)) :=
  encodedAs_formatXF .ldStVx rfl fun w nn => by rw [decodeF, nn]; rfl

/-- Settles O43: each copies one byte and advances. -/
theorem timerInstructionsMoveTimers : Obligations.TimerInstructionsMoveTimers :=
  have advanced (s : State) := BitVec.toNat_add s.pc 2#16
  ⟨ldVxDt_encodedAs, ldDtVx_encodedAs, ldStVx_encodedAs, fun s _ =>
    ⟨exec_writesV rfl fun _ written => written,
      ⟨_, rfl, rfl, advanced s, fun _ => rfl, rfl⟩, ⟨_, rfl, rfl, advanced s, fun _ => rfl, rfl⟩⟩⟩

/-- Settles O44: the wait is entered, `PK` becomes `K`, and nothing else is written. -/
theorem waitForKeyEntersTheWait : Obligations.WaitForKeyEntersTheWait :=
  ⟨ldVxK_encodedAs, fun _ _ => ⟨_, rfl, rfl, fun _ => rfl, rfl, fun _ => rfl, rfl⟩⟩

/-! `Tick`, `SetKeys` and `Load` (R236, R239; 70_reset_and_hazards.md R292) -/

section
variable {s : State}

theorem State.tick_of_faulted (h : s.fault ≠ none) : s.tick = (s, false) := if_pos h

theorem State.tick_of_running (h : s.fault = none) :
    s.tick = ({ s with dt := countDown s.dt, st := countDown s.st },
      decide (s.st.toNat > 0) && countDown s.st == 0) :=
  if_neg (not_not.2 h)

theorem State.setKeys_of_faulted (h : s.fault ≠ none) (keys : Keys) : s.setKeys keys = s := if_pos h

theorem State.setKeys_of_running (h : s.fault = none) (keys : Keys) : s.setKeys keys = { s with k := keys } :=
  if_neg (not_not.2 h)

end

/-- `Load` writes memory at most. -/
theorem State.load_kw (s : State) (bytes : List Byte) : (s.load bytes).1.kw = s.kw := by
  unfold State.load
  split
  · rfl
  · split <;> rfl

/-- A timer counts down to 0 and stays there, as subtraction on numbers does. -/
theorem countDown_toNat (t : Byte) : (countDown t).toNat = t.toNat - 1 := by
  unfold countDown
  split
  · bv_omega
  · omega

/-- The sound timer went from 1 to 0 (R236). -/
theorem buzz_iff (t : Byte) : (decide (t.toNat > 0) && countDown t == 0) = true ↔ t.toNat = 1 := by
  have reached : countDown t = 0 ↔ t.toNat - 1 = 0 := by
    rw [← countDown_toNat, BitVec.toNat_eq]
    rfl
  rw [Bool.and_eq_true, decide_eq_true_eq, beq_iff_eq, reached]
  omega

/-- Settles O49: on a faulted state `Tick` does nothing, on another it counts both timers down. -/
theorem tickCountsDown : Obligations.TickCountsDown := by
  refine fun s => ⟨State.tick_of_faulted, fun running => ?_⟩
  rw [State.tick_of_running running]
  exact ⟨countDown_toNat s.dt, countDown_toNat s.st, buzz_iff s.st, fun _ => rfl, rfl⟩

/-- Settles O52: on a faulted state `SetKeys` does nothing, on another it writes `K` alone. -/
theorem setKeysWritesTheKeypad : Obligations.SetKeysWritesTheKeypad := by
  refine fun s keys => ⟨fun faulted => State.setKeys_of_faulted faulted keys, fun running => ?_⟩
  rw [State.setKeys_of_running running]
  exact ⟨fun _ => rfl, fun _ => rfl, rfl⟩

/-! The lowest key newly down (R234) -/

section
variable {s : State}

theorem newlyPressed_iff_newlyDown (key : Reg) : newlyPressed s.k s.pk key = true ↔ NewlyDown s key := by
  rw [newlyPressed, Bool.and_eq_true, Bool.not_eq_true', NewlyDown]

theorem newlyPressed_eq_false {key : Reg} (h : ¬ NewlyDown s key) : newlyPressed s.k s.pk key = false :=
  Bool.eq_false_of_not_eq_true (mt (newlyPressed_iff_newlyDown key).1 h)

theorem lowestNewKey_eq_find? (k pk : Keys) : lowestNewKey k pk = Fin.find? (newlyPressed k pk) :=
  Fin.find?_eq_find?_finRange.symm

theorem lowestNewKey_eq_some {key : Reg} (down : NewlyDown s key)
    (lowest : ∀ lower : Reg, lower < key → ¬ NewlyDown s lower) : lowestNewKey s.k s.pk = some key := by
  rw [lowestNewKey_eq_find?, Fin.find?_eq_some_iff]
  exact ⟨(newlyPressed_iff_newlyDown key).2 down, fun lower lt => newlyPressed_eq_false (lowest lower lt)⟩

theorem lowestNewKey_eq_none (h : ∀ key, ¬ NewlyDown s key) : lowestNewKey s.k s.pk = none := by
  rw [lowestNewKey_eq_find?, Fin.find?_eq_none_iff]
  exact fun key => newlyPressed_eq_false (h key)

/-! The two wait phases (R234, R235) -/

theorem step_of_waiting {r : Reg} (hf : s.fault = none) (hk : s.kw = .waiting r) :
    step s = .next (waitPhase r s) := by
  simp only [step, hf, hk]

theorem step_of_resolved (hf : s.fault = none) (hk : s.kw = .resolved) : step s = .next (resolvedPhase s) := by
  simp only [step, hf, hk]

theorem step_of_newKey {r key : Reg} (hf : s.fault = none) (hk : s.kw = .waiting r) (down : NewlyDown s key)
    (lowest : ∀ lower : Reg, lower < key → ¬ NewlyDown s lower) :
    step s = .next { s.writeV r (keyByte key) with kw := .resolved, pk := s.k } := by
  rw [step_of_waiting hf hk, waitPhase, lowestNewKey_eq_some down lowest]

theorem step_of_noNewKey {r : Reg} (hf : s.fault = none) (hk : s.kw = .waiting r) (h : ∀ key, ¬ NewlyDown s key) :
    step s = .next { s with pk := s.k } := by
  rw [step_of_waiting hf hk, waitPhase, lowestNewKey_eq_none h]

/-- The register of a resolved wait holds the index of the key, which fits a byte. -/
theorem writeV_keyByte_toNat (s : State) (r key : Reg) : ((s.writeV r (keyByte key)).v[r]).toNat = key.val := by
  have written : (s.writeV r (keyByte key)).v[r] = keyByte key := s.readV_writeV_same r _
  rw [written]
  exact Nat.mod_eq_of_lt (key.isLt.trans (by decide))

end

/-- Settles O45: the phase looks for the first key newly down from key 0 on. -/
theorem waitResolvesToLowestNewKey : Obligations.WaitResolvesToLowestNewKey := by
  refine fun s r hf hk => ⟨fun key down lowest => ?_, step_of_noNewKey hf hk⟩
  exact ⟨_, step_of_newKey hf hk down lowest, writeV_keyByte_toNat s r key, rfl, rfl, rfl,
    fun _ other => s.readV_writeV_other r _ other, fun _ => rfl, rfl⟩

/-- Settles O46: the phase advances `pc` and clears the latch, and looks at nothing else. -/
theorem resolvedWaitCompletes : Obligations.ResolvedWaitCompletes :=
  fun s hf hk => ⟨_, step_of_resolved hf hk, BitVec.toNat_add s.pc 2#16, rfl, fun _ => rfl, rfl⟩

/-! The keypad is read by no other instruction (R241) -/

/-- The same state with another keypad, other keys last seen and another key-wait latch. -/
def State.withKeypad (s : State) (k pk : Keys) (kw : KeyWait) : State := { s with k := k, pk := pk, kw := kw }

theorem State.withKeypad_self (s : State) : s.withKeypad s.k s.pk s.kw = s := rfl

section
variable (s : State) (k pk : Keys) (kw : KeyWait)

theorem State.skipWhen_withKeypad (c : Bool) :
    (s.withKeypad k pk kw).skipWhen c = (s.skipWhen c).withKeypad k pk kw := by
  cases c <;> rfl

/-- An instruction other than `LD Vx,K` answers the same whatever the keypad and the key-wait latch hold, and hands
them on: whether it raises is decided by `sp` or by the run of addresses at `I`. -/
theorem exec_withKeypad {i : Instr} (other : ∀ x, i ≠ .ldVxK x) :
    ∃ t, exec i s = .next t ∧ exec i (s.withKeypad k pk kw) = .next (t.withKeypad k pk kw) := by
  match i with
  | .ldVxK x => exact absurd rfl (other x)
  | .seImm _ _ | .sneImm _ _ | .seReg _ _ | .sneReg _ _ =>
    exact ⟨_, rfl, congrArg Host.Outcome.next (s.skipWhen_withKeypad k pk kw _)⟩
  | .ret =>
    obtain empty | depth := Nat.eq_zero_or_pos s.sp.val
    · exact ⟨_, execRet_error empty, execRet_error empty⟩
    · exact ⟨_, execRet_ok depth, execRet_ok (s := s.withKeypad k pk kw) depth⟩
  | .call nnn =>
    obtain room | full := Nat.lt_or_eq_of_le (Nat.le_of_lt_succ s.sp.isLt)
    · exact ⟨_, execCall_ok nnn room, execCall_ok (s := s.withKeypad k pk kw) nnn room⟩
    · exact ⟨_, execCall_error nnn full, execCall_error nnn full⟩
  | .drw x y n =>
    cases h : lowestInvalid s.baseAddress n.val with
    | none => exact ⟨_, execDrw_ok x y n h, execDrw_ok x y n h⟩
    | some _ => exact ⟨_, execDrw_error x y n h, execDrw_error x y n h⟩
  | .ldB x =>
    cases h : lowestInvalid s.baseAddress 3 with
    | none => exact ⟨_, execLdB_ok x h, execLdB_ok x h⟩
    | some _ => exact ⟨_, execLdB_error x h, execLdB_error x h⟩
  | .storeRegs x =>
    cases h : lowestInvalid s.baseAddress (x.val + 1) with
    | none => exact ⟨_, execStoreRegs_ok x h, execStoreRegs_ok x h⟩
    | some _ => exact ⟨_, execStoreRegs_error x h, execStoreRegs_error x h⟩
  | .loadRegs x =>
    cases h : lowestInvalid s.baseAddress (x.val + 1) with
    | none => exact ⟨_, execLoadRegs_ok x h, execLoadRegs_ok x h⟩
    | some _ => exact ⟨_, execLoadRegs_error x h, execLoadRegs_error x h⟩
  | .cls | .jp _ | .ldImm _ _ | .addImm _ _ | .ldReg _ _ | .orReg _ _ | .andReg _ _ | .xorReg _ _ | .addReg _ _
  | .subReg _ _ | .shrReg _ _ | .subnReg _ _ | .shlReg _ _ | .ldI _ | .ldVxDt _ | .ldDtVx _ | .ldStVx _ | .addI _
  | .ldF _ | .sys _ | .jpV0 _ | .rnd _ _ | .skp _ | .sknp _ | .unrecognized _ => exact ⟨_, rfl, rfl⟩

variable {s} {t : State} {i : Instr}

theorem exec_withKeypad_of_next (other : ∀ x, i ≠ .ldVxK x) (h : exec i s = .next t) :
    exec i (s.withKeypad k pk kw) = .next (t.withKeypad k pk kw) := by
  obtain ⟨u, next, replaced⟩ := exec_withKeypad s k pk kw other
  rwa [Host.Outcome.next.inj (h.symm.trans next)]

/-- What an instruction other than `LD Vx,K` hands on, it leaves as it was. -/
theorem exec_keeps_keypad (other : ∀ x, i ≠ .ldVxK x) (h : exec i s = .next t) :
    t.k = s.k ∧ t.pk = s.pk ∧ t.kw = s.kw := by
  have same := exec_withKeypad_of_next s.k s.pk s.kw other h
  rw [State.withKeypad_self, h] at same
  rw [Host.Outcome.next.inj same]
  exact ⟨rfl, rfl, rfl⟩

end

/-- Settles O53: the instruction hands the keypad on, and it has kept the key-wait latch. -/
theorem keypadIsReadOnlyByTheWait : Obligations.KeypadIsReadOnlyByTheWait := by
  intro i s t keys previous other h
  obtain ⟨-, -, latch⟩ := exec_keeps_keypad other h
  have kept : t.withKeypad keys previous s.kw = { t with k := keys, pk := previous } := by rw [← latch]; rfl
  exact (exec_withKeypad_of_next keys previous s.kw other h).trans (congrArg Host.Outcome.next kept)

/-! The table of the key-wait (R240) -/

section
variable {s t : State}

theorem nextInstr_of_fetched (hf : s.fault = none) (hk : s.kw = .notWaiting) {w : Word} (h : fetch s = .ok w) :
    s.nextInstr = some (decode w) := by
  rw [State.nextInstr, if_pos ⟨hf, hk⟩, h]

/-- A step with an instruction to execute executes it. -/
theorem step_of_nextInstr {i : Instr} (h : s.nextInstr = some i) : step s = exec i s := by
  unfold State.nextInstr at h
  split at h
  case isTrue ready =>
    obtain ⟨hf, hk⟩ := ready
    cases fetched : fetch s with
    | error f => simp [fetched] at h
    | ok w =>
      rw [fetched] at h
      rw [step_fetching hf hk, fetched, ← Option.some.inj h]
  case isFalse => cases h

/-- A step out of the wait that does not execute `LD Vx,K` enters none, whether or not it can fetch. -/
theorem step_stays_notWaiting (hf : s.fault = none) (hk : s.kw = .notWaiting)
    (other : ∀ x, s.nextInstr ≠ some (.ldVxK x)) (h : step s = .next t) : t.kw = .notWaiting ∧ t.pk = s.pk := by
  rw [step_fetching hf hk] at h
  cases fetched : fetch s with
  | error f =>
    rw [fetched] at h
    rw [← Host.Outcome.next.inj h]
    exact ⟨hk, rfl⟩
  | ok w =>
    rw [fetched] at h
    have notWait (x : Reg) : decode w ≠ .ldVxK x := fun eq =>
      other x ((nextInstr_of_fetched hf hk fetched).trans (congrArg some eq))
    obtain ⟨-, seen, latch⟩ := exec_keeps_keypad notWait h
    exact ⟨latch.trans hk, seen⟩

end

/-- Settles O47: each row is what the step of that phase answers; the other operations leave the latch alone. -/
theorem keyWaitMovesAsTheTable : Obligations.KeyWaitMovesAsTheTable := by
  intro s hf
  have answers {t u : State} (h : step s = .next t) (eq : step s = .next u) : u = t :=
    Host.Outcome.next.inj (eq.symm.trans h)
  refine ⟨fun t h => ⟨fun x next => ?enters, fun hk other => step_stays_notWaiting hf hk other h,
    fun r hk key down lowest => ?resolves, fun r hk noKey => ?goesOn, fun hk => ?completes⟩,
    ?tick, fun keys => ?setKeys, s.load_kw, rfl⟩
  case enters =>
    obtain rfl := answers h (step_of_nextInstr next)
    exact ⟨rfl, rfl⟩
  case resolves =>
    obtain rfl := answers h (step_of_newKey hf hk down lowest)
    exact ⟨rfl, rfl, writeV_keyByte_toNat s r key⟩
  case goesOn =>
    obtain rfl := answers h (step_of_noNewKey hf hk noKey)
    exact ⟨hk, rfl⟩
  case completes =>
    obtain rfl := answers h (step_of_resolved hf hk)
    exact ⟨rfl, rfl⟩
  case tick => rw [State.tick_of_running hf]
  case setKeys => rw [State.setKeys_of_running hf]

end Sys2Proof.Machine
end

section
/-! PROOFS. Faults (60_exceptions.md): which instruction raises which, that a faulting step changes the latch alone,
and that a faulted Machine is stopped. -/

namespace Sys2Proof.Machine

/-! What an instruction does to the latch (R260, R263) -/

section
variable {i : Instr} {s t : State} {f : Fault}

@[simp] theorem State.skipWhen_fault (s : State) (c : Bool) : (s.skipWhen c).fault = s.fault := by
  rw [State.skipWhen_eq, State.jump_fault]

/-- An instruction raises the fault of the table and does nothing else, or the table has none for it and it leaves the
latch alone: the checks of R260 come before any write (R263). -/
theorem exec_raises_or_keeps_fault (i : Instr) (s : State) :
    (∃ f, faultOf i s = some f ∧ f.pc = s.pc ∧ exec i s = .next (s.raise f)) ∨
      faultOf i s = none ∧ ∃ t, exec i s = .next t ∧ t.fault = s.fault := by
  match i with
  | .ret =>
    obtain empty | depth := Nat.eq_zero_or_pos s.sp.val
    · exact .inl ⟨_, if_pos empty, rfl, execRet_error empty⟩
    · exact .inr ⟨if_neg depth.ne', _, execRet_ok depth, rfl⟩
  | .call nnn =>
    obtain room | full := Nat.lt_or_eq_of_le (Nat.le_of_lt_succ s.sp.isLt)
    · exact .inr ⟨if_neg room.ne, _, execCall_ok nnn room, rfl⟩
    · exact .inl ⟨_, if_pos full, rfl, execCall_error nnn full⟩
  | .drw x y n =>
    cases h : lowestInvalid s.baseAddress n.val with
    | none => exact .inr ⟨congrArg (Option.map _) h, _, execDrw_ok x y n h, rfl⟩
    | some _ => exact .inl ⟨_, congrArg (Option.map _) h, rfl, execDrw_error x y n h⟩
  | .ldB x =>
    cases h : lowestInvalid s.baseAddress 3 with
    | none => exact .inr ⟨congrArg (Option.map _) h, _, execLdB_ok x h, rfl⟩
    | some _ => exact .inl ⟨_, congrArg (Option.map _) h, rfl, execLdB_error x h⟩
  | .storeRegs x =>
    cases h : lowestInvalid s.baseAddress (x.val + 1) with
    | none => exact .inr ⟨congrArg (Option.map _) h, _, execStoreRegs_ok x h, rfl⟩
    | some _ => exact .inl ⟨_, congrArg (Option.map _) h, rfl, execStoreRegs_error x h⟩
  | .loadRegs x =>
    cases h : lowestInvalid s.baseAddress (x.val + 1) with
    | none => exact .inr ⟨congrArg (Option.map _) h, _, execLoadRegs_ok x h, rfl⟩
    | some _ => exact .inl ⟨_, congrArg (Option.map _) h, rfl, execLoadRegs_error x h⟩
  | .seImm _ _ | .sneImm _ _ | .seReg _ _ | .sneReg _ _ => exact .inr ⟨rfl, _, rfl, s.skipWhen_fault _⟩
  | .cls | .jp _ | .ldImm _ _ | .addImm _ _ | .ldReg _ _ | .orReg _ _ | .andReg _ _ | .xorReg _ _ | .addReg _ _
  | .subReg _ _ | .shrReg _ _ | .subnReg _ _ | .shlReg _ _ | .ldI _ | .ldVxDt _ | .ldVxK _ | .ldDtVx _ | .ldStVx _
  | .addI _ | .ldF _ | .sys _ | .jpV0 _ | .rnd _ _ | .skp _ | .sknp _ | .unrecognized _ =>
    exact .inr ⟨rfl, _, rfl, rfl⟩

/-- The latch after an instruction is what the table says (R260). -/
theorem exec_fault_eq_faultOf (hf : s.fault = none) (h : exec i s = .next t) : t.fault = faultOf i s := by
  obtain ⟨f, table, -, raised⟩ | ⟨table, u, next, kept⟩ := exec_raises_or_keeps_fault i s
  · rw [table, Host.Outcome.next.inj (h.symm.trans raised), State.raise_fault]
  · rw [table, Host.Outcome.next.inj (h.symm.trans next), kept, hf]

/-- An instruction that sets the latch does nothing else (R263). -/
theorem exec_eq_raise (hf : s.fault = none) (h : exec i s = .next t) (latched : t.fault = some f) :
    t = s.raise f ∧ f.pc = s.pc := by
  have table : faultOf i s = some f := (exec_fault_eq_faultOf hf h).symm.trans latched
  obtain ⟨g, listed, pc, raised⟩ | ⟨unlisted, -⟩ := exec_raises_or_keeps_fault i s
  · obtain rfl := Option.some.inj (table.symm.trans listed)
    exact ⟨Host.Outcome.next.inj (h.symm.trans raised), pc⟩
  · exact nomatch unlisted.symm.trans table

/-! What the rest of a step does to the latch -/

theorem fault_pc_of_fetch_error (h : fetch s = .error f) : f.pc = s.pc := by
  obtain beyond | valid := Nat.lt_or_ge 0xFFE s.pc.toNat
  · rw [← Except.error.inj ((fetch_error s beyond).symm.trans h), Fault.pc]
  · exact nomatch (fetch_ok s valid).symm.trans h

@[simp] theorem waitPhase_fault (r : Reg) (s : State) : (waitPhase r s).fault = s.fault := by
  unfold waitPhase
  split <;> rfl

@[simp] theorem resolvedPhase_fault (s : State) : (resolvedPhase s).fault = s.fault := rfl

/-- A step in a key-wait raises nothing: it fetches nothing (R260). -/
theorem step_fault_of_waiting (hf : s.fault = none) (hk : s.kw ≠ .notWaiting) (h : step s = .next t) :
    t.fault = none := by
  obtain ⟨faulted, -⟩ | ⟨-, r, -, rfl⟩ | ⟨-, -, rfl⟩ | ⟨-, idle, -⟩ | ⟨-, idle, -⟩ := step_cases h
  · exact absurd hf faulted
  · rw [waitPhase_fault, hf]
  · rw [resolvedPhase_fault, hf]
  · exact absurd idle hk
  · exact absurd idle hk

/-- A step that sets the latch does nothing else, whether the fetch or the instruction raises (R261, R263). -/
theorem step_eq_raise (hf : s.fault = none) (h : step s = .next t) (latched : t.fault = some f) :
    t = s.raise f ∧ f.pc = s.pc := by
  obtain ⟨faulted, -⟩ | ⟨-, r, -, rfl⟩ | ⟨-, -, rfl⟩ | ⟨-, -, g, fetched, rfl⟩ | ⟨-, -, w, -, next⟩ := step_cases h
  · exact absurd hf faulted
  · rw [waitPhase_fault, hf] at latched
    exact nomatch latched
  · rw [resolvedPhase_fault, hf] at latched
    exact nomatch latched
  · obtain rfl := Option.some.inj latched
    exact ⟨rfl, fault_pc_of_fetch_error fetched⟩
  · exact exec_eq_raise hf next latched

/-! The other operations (R260, R262) -/

@[simp] theorem State.load_fault (s : State) (bytes : List Byte) : (s.load bytes).1.fault = s.fault := by
  unfold State.load
  split
  · rfl
  · split <;> rfl

theorem State.load_of_faulted (h : s.fault ≠ none) (bytes : List Byte) : s.load bytes = (s, .ok) := if_pos h

theorem step_of_faulted (h : s.fault ≠ none) : step s = .next s := by
  obtain ⟨f, latched⟩ := Option.ne_none_iff_exists'.1 h
  simp only [step, latched]

end

/-- Settles O16: the table for `exec`, the fetch above 0xFFE, and the phases and operations that hand the latch on. -/
theorem faultsAreExactlyTheTable : Obligations.FaultsAreExactlyTheTable := by
  refine ⟨fun _ _ _ => exec_fault_eq_faultOf, fun s t hf hk beyond h => ?fetch, fun _ _ => step_fault_of_waiting,
    fun s hf => ⟨?tick, fun keys => ?setKeys, fun bytes => ?load⟩, fun _ _ _ => ⟨rfl, rfl, rfl⟩⟩
  case fetch => rw [Host.Outcome.next.inj (h.symm.trans (step_of_fetch_fault hf hk beyond)), State.raise_fault]
  case tick => rw [State.tick_of_running hf, hf]
  case setKeys => rw [State.setKeys_of_running hf, hf]
  case load => rw [State.load_fault, hf]

/-- Settles O17: the step is a `raise`, which writes the latch alone. -/
theorem faultsArePrecise : Obligations.FaultsArePrecise := by
  intro s t f hf h latched
  obtain ⟨rfl, pc⟩ := step_eq_raise hf h latched
  exact ⟨State.raise_eq s f, pc, fun _ => rfl⟩

/-- Settles O18: a faulted state is a fixed point of a step, so of any number of steps. -/
theorem faultedMachineIsStopped : Obligations.FaultedMachineIsStopped := by
  intro s faulted
  have stopped := step_of_faulted faulted
  exact ⟨run_fixed stopped, stopped, State.tick_of_faulted faulted, State.setKeys_of_faulted faulted,
    State.load_of_faulted faulted, rfl, rfl⟩

end Sys2Proof.Machine
end

section
/-! PROOFS. The host's `Load` (70_reset_and_hazards.md R292): its three answers, and the memory after a program that
fits. -/

namespace Sys2Proof.Machine

theorem State.load_of_tooLarge {s : State} {bytes : List Byte} (hf : s.fault = none) (long : 3584 < bytes.length) :
    s.load bytes = (s, .tooLarge) := by
  have beyond : Config.progMax < bytes.length := long
  rw [State.load, if_neg (not_not.2 hf), if_pos beyond]

/-- Settles O55: a program that fits ends at 0x1000 or below, so it is one run of bytes inside memory. -/
theorem loadCopiesTheProgram : Obligations.LoadCopiesTheProgram := by
  intro s bytes
  refine ⟨fun faulted => State.load_of_faulted faulted bytes, State.load_of_tooLarge, fun hf wf fits => ?_⟩
  have inside : 0x200 + bytes.length ≤ 0x1000 := by omega
  rw [load_of_fits hf fits]
  exact ⟨rfl, fun _ => Memory.get_setRun_inside wf inside, fun _ => Memory.get_setRun_outside wf inside, rfl⟩

end Sys2Proof.Machine
end

section
/-! PROOFS. Decoding and encoding are inverse to each other on the well-formed instructions (30_encoding.md R90 to
R97), and the unrecognized words are those of R96's list. -/

namespace Sys2Proof

open Sys2Proof.Machine Sys2Proof.Claims
open Sys2Proof.Laws.EncodesItsRow
  (formatA_and formatXI_and formatXI_and_op formatXYN_and formatXYN_and_op statement_holds)

/-! Encodings (30_encoding.md R97, rows 31 to 35) -/

theorem eq_formatA_iff {w : Word} {op : BitVec 4} (h : fieldOp w = op) (nnn : Address) :
    w = formatA op nnn ↔ fieldNNN w = nnn := by
  constructor
  · rintro rfl
    exact fieldNNN_formatA op nnn
  · rintro rfl
    exact (formatA_of_fields h).symm

/-- Rows 1 and 2 take two addresses of the conventional row `0nnn` (R96). -/
theorem decode_of_op_zero {w : Word} (op : fieldOp w = 0x0#4) :
    decode w = if fieldNNN w = 0x0E0 then .cls else if fieldNNN w = 0x0EE then .ret else .sys (fieldNNN w) := by
  have cls : w = 0x00E0#16 ↔ fieldNNN w = 0x0E0 := eq_formatA_iff op 0x0E0
  have ret : w = 0x00EE#16 ↔ fieldNNN w = 0x0EE := eq_formatA_iff op 0x0EE
  simp only [← cls, ← ret, decode, op]

theorem jpV0_encodedAs : EncodedAs 0xB000 0xF000 (fun w => .jpV0 (nnnOf w)) :=
  encodedAs_formatA .jpV0 fun w op => by rw [decode, op]; rfl

theorem rnd_encodedAs : EncodedAs 0xC000 0xF000 (fun w => .rnd (xOf w) (nnOf w)) :=
  encodedAs_formatXI .rnd fun w op => by rw [decode, op]; rfl

theorem skp_encodedAs : EncodedAs 0xE09E 0xF0FF (fun w => .skp (xOf w)) := by
  intro w covered
  have op : fieldOp w = 0xE#4 := fieldOp_of_mask covered rfl
  have nn : fieldNN w = 0x9E#8 := fieldNN_of_mask covered rfl
  have arm : decode w = .skp (fieldX w) := by rw [decode, op, nn]; rfl
  rw [arm, fieldX_eq_xOf]

theorem sknp_encodedAs : EncodedAs 0xE0A1 0xF0FF (fun w => .sknp (xOf w)) := by
  intro w covered
  have op : fieldOp w = 0xE#4 := fieldOp_of_mask covered rfl
  have nn : fieldNN w = 0xA1#8 := fieldNN_of_mask covered rfl
  have arm : decode w = .sknp (fieldX w) := by rw [decode, op, nn]; rfl
  rw [arm, fieldX_eq_xOf]

/-! A word put together under a format decodes to the instruction of its row (R92, R94): `fixed` says that the row's
`match` value is the word whose operands are all 0. -/

section
variable {op n : BitVec 4} {nn : Byte} {value : Word}

theorem decode_formatA (i : Address → Instr) (row : EncodedAs value 0xF000 fun w => i (nnnOf w))
    (fixed : formatA op 0 = value) (nnn : Address) : decode (formatA op nnn) = i nnn := by
  have decoded : decode (formatA op nnn) = i (nnnOf (formatA op nnn)) := row _ ((formatA_and op nnn).trans fixed)
  rw [decoded, ← fieldNNN_eq_nnnOf, fieldNNN_formatA]

theorem decode_formatXI (i : Reg → Byte → Instr) (row : EncodedAs value 0xF000 fun w => i (xOf w) (nnOf w))
    (fixed : formatA op 0 = value) (x : Reg) (nn : Byte) : decode (formatXI op x nn) = i x nn := by
  have decoded : decode (formatXI op x nn) = i (xOf (formatXI op x nn)) (nnOf (formatXI op x nn)) :=
    row _ ((formatXI_and_op op x nn).trans fixed)
  rw [decoded, ← fieldX_eq_xOf, ← fieldNN_eq_nnOf, fieldX_formatXI, fieldNN_formatXI]

theorem decode_formatXF (i : Reg → Instr) (row : EncodedAs value 0xF0FF fun w => i (xOf w))
    (fixed : formatXI op 0 nn = value) (x : Reg) : decode (formatXI op x nn) = i x := by
  have decoded : decode (formatXI op x nn) = i (xOf (formatXI op x nn)) := row _ ((formatXI_and op x nn).trans fixed)
  rw [decoded, ← fieldX_eq_xOf, fieldX_formatXI]

theorem decode_formatXY (i : Reg → Reg → Instr) (row : EncodedAs value 0xF00F fun w => i (xOf w) (yOf w))
    (fixed : formatXYN op 0 0 n = value) (x y : Reg) : decode (formatXYN op x y n) = i x y := by
  have decoded : decode (formatXYN op x y n) = i (xOf (formatXYN op x y n)) (yOf (formatXYN op x y n)) :=
    row _ ((formatXYN_and op x y n).trans fixed)
  rw [decoded, ← fieldX_eq_xOf, ← fieldY_eq_yOf, fieldX_formatXYN, fieldY_formatXYN]

end

theorem decode_encode_drw (x y : Reg) (n : Fin 16) : decode (encode (.drw x y n)) = .drw x y n := by
  let w := formatXYN 0xD x y (BitVec.ofFin n)
  have decoded : decode w = .drw (xOf w) (yOf w) (nOf w) := drw_encodedAs w (formatXYN_and_op 0xD x y _)
  rw [← fieldX_eq_xOf, ← fieldY_eq_yOf, ← fieldN_toFin_eq_nOf, fieldX_formatXYN, fieldY_formatXYN,
    fieldN_formatXYN] at decoded
  exact decoded

/-- `SYS nnn` with an address that `CLS` and `RET` do not take (R96). -/
theorem decode_encode_sys {nnn : Address} (wf : (Instr.sys nnn).wf = true) :
    decode (encode (.sys nnn)) = .sys nnn := by
  have op : fieldOp (encode (.sys nnn)) = 0x0#4 := fieldOp_formatA 0x0 nnn
  have address : fieldNNN (encode (.sys nnn)) = nnn := fieldNNN_formatA 0x0 nnn
  obtain ⟨notCls, notRet⟩ : nnn ≠ 0x0E0 ∧ nnn ≠ 0x0EE := by simpa [Instr.wf] using wf
  rw [decode_of_op_zero op, address, if_neg notCls, if_neg notRet]

/-- The numbers of the rows with fixed bits are 1 to 35 (R95, R97). -/
theorem exists_fixedRow : ∀ n < 36, 0 < n → ∃ row ∈ recognizedRows ++ conventionalRows, row.number = n := by
  decide

/-- The catch-all is the last row. -/
theorem rowNumber_lt_or_unrecognized (i : Instr) : i.rowNumber < 36 ∨ ∃ w, i = .unrecognized w := by
  cases i with
  | unrecognized w => exact .inr ⟨w, rfl⟩
  | _ => exact .inl (of_decide_eq_true rfl)

/-- A word that no row with fixed bits covers is the catch-all's (R96). -/
theorem decode_encode_unrecognized {w : Word} (wf : (Instr.unrecognized w).wf = true) :
    decode (encode (.unrecognized w)) = .unrecognized w := by
  have uncovered : ∀ row ∈ recognizedRows ++ conventionalRows, row.covers w = false := by
    simpa only [Instr.wf, Bool.not_eq_true', List.any_eq_false, Bool.not_eq_true] using wf
  obtain fixed | ⟨v, decoded⟩ := rowNumber_lt_or_unrecognized (decode w)
  · obtain ⟨row, mem, number⟩ := exists_fixedRow _ fixed (decode w).rowNumber_pos
    have covered := statement_holds (decode w) row mem number
    rw [encode_decode, uncovered row mem] at covered
    exact absurd covered Bool.false_ne_true
  · have same : encode (decode w) = w := encode_decode w
    rw [decoded] at same
    exact decoded.trans (congrArg Instr.unrecognized same)

/-- Settles O1: the word of an instruction is one its row covers, and the row's operands are the fields put in. -/
theorem decodeOfEncode : Obligations.DecodeOfEncode := by
  intro i wf
  match i, wf with
  | .cls, _ | .ret, _ => rfl
  | .jp nnn, _ => exact decode_formatA .jp jp_encodedAs rfl nnn
  | .call nnn, _ => exact decode_formatA .call call_encodedAs rfl nnn
  | .ldI nnn, _ => exact decode_formatA .ldI ldI_encodedAs rfl nnn
  | .jpV0 nnn, _ => exact decode_formatA .jpV0 jpV0_encodedAs rfl nnn
  | .seImm x nn, _ => exact decode_formatXI .seImm seImm_encodedAs rfl x nn
  | .sneImm x nn, _ => exact decode_formatXI .sneImm sneImm_encodedAs rfl x nn
  | .ldImm x nn, _ => exact decode_formatXI .ldImm ldImm_encodedAs rfl x nn
  | .addImm x nn, _ => exact decode_formatXI .addImm addImm_encodedAs rfl x nn
  | .rnd x nn, _ => exact decode_formatXI .rnd rnd_encodedAs rfl x nn
  | .seReg x y, _ => exact decode_formatXY .seReg seReg_encodedAs rfl x y
  | .sneReg x y, _ => exact decode_formatXY .sneReg sneReg_encodedAs rfl x y
  | .ldReg x y, _ => exact decode_formatXY .ldReg ldReg_encodedAs rfl x y
  | .orReg x y, _ => exact decode_formatXY .orReg orReg_encodedAs rfl x y
  | .andReg x y, _ => exact decode_formatXY .andReg andReg_encodedAs rfl x y
  | .xorReg x y, _ => exact decode_formatXY .xorReg xorReg_encodedAs rfl x y
  | .addReg x y, _ => exact decode_formatXY .addReg addReg_encodedAs rfl x y
  | .subReg x y, _ => exact decode_formatXY .subReg subReg_encodedAs rfl x y
  | .shrReg x y, _ => exact decode_formatXY .shrReg shrReg_encodedAs rfl x y
  | .subnReg x y, _ => exact decode_formatXY .subnReg subnReg_encodedAs rfl x y
  | .shlReg x y, _ => exact decode_formatXY .shlReg shlReg_encodedAs rfl x y
  | .drw x y n, _ => exact decode_encode_drw x y n
  | .ldVxDt x, _ => exact decode_formatXF .ldVxDt ldVxDt_encodedAs rfl x
  | .ldVxK x, _ => exact decode_formatXF .ldVxK ldVxK_encodedAs rfl x
  | .ldDtVx x, _ => exact decode_formatXF .ldDtVx ldDtVx_encodedAs rfl x
  | .ldStVx x, _ => exact decode_formatXF .ldStVx ldStVx_encodedAs rfl x
  | .addI x, _ => exact decode_formatXF .addI addI_encodedAs rfl x
  | .ldF x, _ => exact decode_formatXF .ldF ldF_encodedAs rfl x
  | .ldB x, _ => exact decode_formatXF .ldB ldB_encodedAs rfl x
  | .storeRegs x, _ => exact decode_formatXF .storeRegs storeRegs_encodedAs rfl x
  | .loadRegs x, _ => exact decode_formatXF .loadRegs loadRegs_encodedAs rfl x
  | .skp x, _ => exact decode_formatXF .skp skp_encodedAs rfl x
  | .sknp x, _ => exact decode_formatXF .sknp sknp_encodedAs rfl x
  | .sys nnn, wf => exact decode_encode_sys wf
  | .unrecognized w, wf => exact decode_encode_unrecognized wf

/-! What a word decodes to is well formed -/

theorem recognizedRows_number_le : ∀ row ∈ recognizedRows, row.number ≤ 30 := by
  decide

/-- A word that a conventional row covers is not the catch-all's. -/
theorem decode_ne_unrecognized_of_conventional {w : Word} {row : OpcodeRow} (mem : row ∈ conventionalRows)
    (covered : row.covers w = true) (u : Word) : decode w ≠ .unrecognized u := by
  rw [OpcodeRow.covers_iff] at covered
  simp only [conventionalRows, List.mem_cons, List.not_mem_nil, or_false] at mem
  obtain rfl | rfl | rfl | rfl | rfl := mem
  · rw [decode_of_op_zero (fieldOp_of_mask covered rfl)]
    split
    · nofun
    · split <;> nofun
  · rw [jpV0_encodedAs w covered]
    nofun
  · rw [rnd_encodedAs w covered]
    nofun
  · rw [skp_encodedAs w covered]
    nofun
  · rw [sknp_encodedAs w covered]
    nofun

theorem uncovered_of_decode_unrecognized {w u : Word} (h : decode w = .unrecognized u) {row : OpcodeRow}
    (mem : row ∈ recognizedRows ++ conventionalRows) : row.covers w = false := by
  by_contra covered
  rw [Bool.not_eq_false] at covered
  obtain recognized | conventional := List.mem_append.1 mem
  · have number := rowNumber_decode_of_covers recognized covered
    have bound := recognizedRows_number_le row recognized
    rw [h, Instr.rowNumber] at number
    omega
  · exact decode_ne_unrecognized_of_conventional conventional covered u h

theorem decode_wf (w : Word) : (decode w).wf = true := by
  have same := encode_decode w
  cases h : decode w with
  | sys nnn =>
    rw [h] at same
    have op : fieldOp w = 0x0#4 := same ▸ fieldOp_formatA 0x0 nnn
    have address : fieldNNN w = nnn := same ▸ fieldNNN_formatA 0x0 nnn
    rw [decode_of_op_zero op, address] at h
    rw [Instr.wf, Bool.and_eq_true, bne_iff_ne, bne_iff_ne]
    exact ⟨fun cls => by simp [cls] at h, fun ret => by simp [ret] at h⟩
  | unrecognized u =>
    rw [h] at same
    obtain rfl : u = w := same
    rw [Instr.wf, Bool.not_eq_true', List.any_eq_false]
    exact fun row mem => Bool.eq_false_iff.1 (uncovered_of_decode_unrecognized h mem)
  | _ => rfl

/-- Settles O2: the word is put together again from the fields taken, and a word that a row covers is of that row. -/
theorem encodeOfDecode : Obligations.EncodeOfDecode := fun w => ⟨decode_wf w, encode_decode w⟩

/-! The list of the unrecognized words (R96) -/

section
variable (w : Word)

theorem bitsAt_op : bitsAt w 12 4 = (fieldOp w).toNat := by
  have := w.isLt
  rw [fieldOp_toNat, bitsAt]
  omega

theorem bitsAt_n : bitsAt w 0 4 = (fieldN w).toNat := (bitsAt_low w 4).trans (fieldN_toNat w).symm

theorem bitsAt_nn : bitsAt w 0 8 = (fieldNN w).toNat := (bitsAt_low w 8).trans (fieldNN_toNat w).symm

theorem bitsAt_nnn : bitsAt w 0 12 = (fieldNNN w).toNat := (bitsAt_low w 12).trans (fieldNNN_toNat w).symm

theorem not_recognized_decodeAlu_iff :
    (decodeAlu w).recognized = false ↔ (fieldN w).toNat ∈ [0x8, 0x9, 0xA, 0xB, 0xC, 0xD, 0xF] := by
  unfold decodeAlu
  split
  case h_10 =>
    have others : ∀ n : BitVec 4, n ∉ [0x0#4, 0x1, 0x2, 0x3, 0x4, 0x5, 0x6, 0x7, 0xE] →
        n.toNat ∈ [0x8, 0x9, 0xA, 0xB, 0xC, 0xD, 0xF] := by decide
    exact iff_of_true rfl (others _ (by simp_all))
  all_goals simp [Instr.recognized, Instr.rowNumber, *]

theorem not_recognized_decodeF_iff :
    (decodeF w).recognized = false ↔
      (fieldNN w).toNat ∉ [0x07, 0x0A, 0x15, 0x18, 0x1E, 0x29, 0x33, 0x55, 0x65] := by
  unfold decodeF
  split
  case h_10 =>
    have others : ∀ nn : Byte, nn ∉ [0x07#8, 0x0A, 0x15, 0x18, 0x1E, 0x29, 0x33, 0x55, 0x65] →
        nn.toNat ∉ [0x07, 0x0A, 0x15, 0x18, 0x1E, 0x29, 0x33, 0x55, 0x65] := by decide
    exact iff_of_true rfl (others _ (by simp_all))
  all_goals simp [Instr.recognized, Instr.rowNumber, *]

end

theorem recognized_ite (p : Prop) [Decidable p] (i j : Instr) :
    (if p then i else j).recognized = if p then i.recognized else j.recognized := apply_ite Instr.recognized p i j

/-- Settles O4: in each arm of the decoder one entry of the list is left, and it is the arm's own condition. -/
theorem unrecognizedWordsAreTheList : Obligations.UnrecognizedWordsAreTheList := by
  intro w
  simp only [bitsAt_op, bitsAt_n, bitsAt_nn, bitsAt_nnn, ← not_recognized_decodeAlu_iff,
    ← not_recognized_decodeF_iff, ne_eq, BitVec.toNat_eq_nat]
  obtain zero | nonzero := eq_or_ne (fieldOp w) 0x0#4
  · simp only [decode_of_op_zero zero, recognized_ite]
    simp [zero, Instr.recognized, Instr.rowNumber]
  unfold decode
  split
  case h_1 op => exact absurd op nonzero
  case h_6 op | h_10 op | h_15 op =>
    simp only [recognized_ite]
    simp [op, Instr.recognized, Instr.rowNumber]
  case h_16 =>
    have op : fieldOp w = 0xF#4 := by
      simp only [imp_false] at *
      bv_omega
    simp [op]
  all_goals simp [Instr.recognized, Instr.rowNumber, *]

end Sys2Proof
end

section
/-! PROOFS. What an instruction leaves when it does not raise, as one state, and from it what it leaves unchanged. -/

namespace Sys2Proof.Machine

/-! The two ends of an instruction -/

theorem set_eq_setIfInBounds {α : Type} {n j : Nat} (v : Vector α n) (a : α) (h : j < n) :
    v.set j a h = v.setIfInBounds j a :=
  Vector.ext fun k hk => by rw [Vector.getElem_set, Vector.getElem_setIfInBounds]

/-- The state that an instruction leaves when it does not raise: what `exec` answers, written out for the six that
may raise and for the four skips, whose answer goes by cases. -/
def completion (i : Instr) (s : State) : State :=
  match i with
  | .ret => { s with sp := ⟨s.sp.val - 1, by omega⟩, pc := s.stack[s.sp.val - 1]'(by omega) + 2#16 }
  | .call nnn =>
    { s with
      stack := s.stack.setIfInBounds s.sp.val s.pc, sp := Fin.ofNat 17 (s.sp.val + 1), pc := addressWord nnn }
  | .drw x y n =>
    { s with fb := (drawn x y n s).1, v := s.v.set vf.val (flagByte (drawn x y n s).2), pc := s.pc + 2#16 }
  | .ldB x => { s with mem := s.mem.setRun s.baseAddress (bcdDigits s.v[x]) }.advance
  | .storeRegs x => { s with mem := s.mem.setRun s.baseAddress (firstRegisters s.v x) }.advance
  | .loadRegs x => { s with v := loadFirstRegisters s.v 0 (runBytes s.mem s.baseAddress (x.val + 1)) }.advance
  | .seImm x nn => s.jump (if s.v[x] == nn then s.pc + 4#16 else s.pc + 2#16)
  | .sneImm x nn => s.jump (if s.v[x] != nn then s.pc + 4#16 else s.pc + 2#16)
  | .seReg x y => s.jump (if s.v[x] == s.v[y] then s.pc + 4#16 else s.pc + 2#16)
  | .sneReg x y => s.jump (if s.v[x] != s.v[y] then s.pc + 4#16 else s.pc + 2#16)
  | i =>
    match exec i s with
    | .next t => t
    | _ => s

section
variable {i : Instr} {s t : State}

theorem exec_eq_completion (h : faultOf i s = none) : exec i s = .next (completion i s) := by
  cases i with
  | ret =>
    have depth : s.sp.val ≠ 0 := fun empty => by simp [faultOf, empty] at h
    exact execRet_ok (Nat.pos_of_ne_zero depth)
  | call nnn =>
    have room : s.sp.val < 16 := by
      have notFull : s.sp.val ≠ 16 := fun full => by simp [faultOf, full] at h
      omega
    have sp : (⟨s.sp.val + 1, by omega⟩ : Fin 17) = Fin.ofNat 17 (s.sp.val + 1) :=
      Fin.ext (Nat.mod_eq_of_lt (by omega)).symm
    exact (execCall_ok nnn room).trans (by rw [sp, set_eq_setIfInBounds]; rfl)
  | drw x y n => exact execDrw_ok x y n (Option.map_eq_none_iff.1 h)
  | ldB x => exact execLdB_ok x (Option.map_eq_none_iff.1 h)
  | storeRegs x => exact execStoreRegs_ok x (Option.map_eq_none_iff.1 h)
  | loadRegs x => exact execLoadRegs_ok x (Option.map_eq_none_iff.1 h)
  | seImm | sneImm | seReg | sneReg => exact congrArg Host.Outcome.next (s.skipWhen_eq _)
  | _ => rfl

/-- An instruction raises the fault of the table and changes nothing else, or it completes. -/
theorem exec_cases (h : exec i s = .next t) :
    (∃ f, faultOf i s = some f ∧ f.pc = s.pc ∧ t = s.raise f) ∨ faultOf i s = none ∧ t = completion i s := by
  obtain ⟨f, table, pc, raised⟩ | ⟨table, -⟩ := exec_raises_or_keeps_fault i s
  · exact .inl ⟨f, table, pc, Host.Outcome.next.inj (h.symm.trans raised)⟩
  · exact .inr ⟨table, Host.Outcome.next.inj (h.symm.trans (exec_eq_completion table))⟩

/-! What completing leaves unchanged -/

@[simp] theorem completion_fault : (completion i s).fault = s.fault := by
  cases i <;> rfl

@[simp] theorem completion_k : (completion i s).k = s.k := by
  cases i <;> rfl

theorem completion_dt (other : ∀ x, i ≠ .ldDtVx x) : (completion i s).dt = s.dt := by
  cases i with
  | ldDtVx x => exact absurd rfl (other x)
  | _ => rfl

theorem completion_st (other : ∀ x, i ≠ .ldStVx x) : (completion i s).st = s.st := by
  cases i with
  | ldStVx x => exact absurd rfl (other x)
  | _ => rfl

theorem completion_i (ldI : ∀ nnn, i ≠ .ldI nnn) (addI : ∀ x, i ≠ .addI x) (ldF : ∀ x, i ≠ .ldF x) :
    (completion i s).i = s.i := by
  cases i with
  | ldI nnn => exact absurd rfl (ldI nnn)
  | addI x => exact absurd rfl (addI x)
  | ldF x => exact absurd rfl (ldF x)
  | _ => rfl

theorem completion_stack (call : ∀ nnn, i ≠ .call nnn) : (completion i s).stack = s.stack := by
  cases i with
  | call nnn => exact absurd rfl (call nnn)
  | _ => rfl

theorem completion_sp (call : ∀ nnn, i ≠ .call nnn) (ret : i ≠ .ret) : (completion i s).sp = s.sp := by
  cases i with
  | call nnn => exact absurd rfl (call nnn)
  | ret => exact absurd rfl ret
  | _ => rfl

theorem completion_fb (cls : i ≠ .cls) (drw : ∀ x y n, i ≠ .drw x y n) : (completion i s).fb = s.fb := by
  cases i with
  | cls => exact absurd rfl cls
  | drw x y n => exact absurd rfl (drw x y n)
  | _ => rfl

/-- A register that the instruction is not listed to write (10_state.md R22, 43_index_and_memory.md R195). -/
theorem completion_v {r : Reg} (h : ¬ mayWriteV i r) : (completion i s).v[r] = s.v[r] := by
  cases i with
  | ldImm x _ | addImm x _ | ldReg x _ | orReg x _ | andReg x _ | xorReg x _ | ldVxDt x =>
    exact s.readV_writeV_other x _ h
  | addReg x _ | subReg x _ | shrReg x _ | subnReg x _ | shlReg x _ =>
    obtain ⟨other, notFlag⟩ := not_or.1 h
    exact (State.readV_writeV_other _ vf _ notFlag).trans (s.readV_writeV_other x _ other)
  | drw _ _ _ => exact s.readV_writeV_other vf _ h
  | loadRegs x =>
    refine (loadFirstRegisters_get s.v 0 _ r).trans (if_neg ?_)
    have above : ¬ r.val ≤ x.val := h
    rw [runBytes_length]
    omega
  | _ => rfl

/-- The run of bytes an instruction stores, if it has one, lies in memory when it does not raise; no other byte of
memory is written (20_memory.md section 4). -/
theorem completion_mem (i : Instr) (s : State) :
    (completion i s).mem = s.mem ∨
      ∃ bs : List Byte, storedRun i s = some (s.baseAddress, bs.length) ∧
        (completion i s).mem = s.mem.setRun s.baseAddress bs ∧
        (faultOf i s = none → s.baseAddress + bs.length ≤ 0x1000) := by
  have inside {a n : Nat} {f : Nat → Fault} (nonempty : n ≠ 0) (h : (lowestInvalid a n).map f = none) :
      a + n ≤ 0x1000 :=
    ((lowestInvalid_none a n).1 (Option.map_eq_none_iff.1 h)).resolve_left nonempty
  cases i with
  | ldB x => exact .inr ⟨bcdDigits s.v[x], rfl, rfl, inside (by decide)⟩
  | storeRegs x =>
    refine .inr ⟨firstRegisters s.v x, ?_, rfl, ?_⟩
    · rw [firstRegisters_length]
      rfl
    · rw [firstRegisters_length]
      exact inside x.val.succ_ne_zero
  | _ => exact .inl rfl

theorem completion_mem_get (wf : s.mem.wf) (table : faultOf i s = none) {b : Nat}
    (outside : ∀ a n, storedRun i s = some (a, n) → b < a ∨ a + n ≤ b) :
    (completion i s).mem.get b = s.mem.get b := by
  obtain same | ⟨bs, run, stored, fits⟩ := completion_mem i s
  · rw [same]
  · rw [stored]
    exact Memory.get_setRun_outside wf (fits table) (outside _ _ run)

theorem completion_mem_wf (wf : s.mem.wf) (table : faultOf i s = none) : (completion i s).mem.wf := by
  obtain same | ⟨bs, -, stored, fits⟩ := completion_mem i s
  · rw [same]
    exact wf
  · rw [stored]
    exact Memory.wf_setRun wf (fits table)

/-! Where completing leads -/

/-- What holds of every place `pc` can go to, holds of `pc` after the instruction (41_control_transfer.md). -/
theorem completion_pc_of {P : Word → Prop} (stay : P s.pc) (next : P (s.pc + 2#16)) (skip : P (s.pc + 4#16))
    (target : ∀ nnn, i = .jp nnn ∨ i = .call nnn → P (addressWord nnn))
    (back : i = .ret → P (s.stack[s.sp.val - 1]'(by omega) + 2#16)) : P (completion i s).pc := by
  have either (c : Bool) : P (if c then s.pc + 4#16 else s.pc + 2#16) := by
    cases c
    · exact next
    · exact skip
  cases i with
  | ret => exact back rfl
  | jp nnn => exact target nnn (.inl rfl)
  | call nnn => exact target nnn (.inr rfl)
  | seImm | sneImm | seReg | sneReg => exact either _
  | ldVxK x => exact stay
  | _ => exact next

/-- What holds of `pc` and of every outstanding call site, holds of every call site after the instruction. -/
theorem completion_callSites {P : Word → Prop} (here : P s.pc)
    (before : ∀ slot : Fin 16, slot.val < s.sp.val → P s.stack[slot]) (slot : Fin 16)
    (used : slot.val < (completion i s).sp.val) : P (completion i s).stack[slot] := by
  cases i with
  | ret =>
    have lower : slot.val < s.sp.val - 1 := used
    exact before slot (by omega)
  | call nnn =>
    have upTo : slot.val < (s.sp.val + 1) % 17 := used
    have pushed : (s.stack.setIfInBounds s.sp.val s.pc)[slot.val] =
        if s.sp.val = slot.val then s.pc else s.stack[slot.val] := Vector.getElem_setIfInBounds slot.isLt
    refine (congrArg P pushed).mpr ?_
    split
    · exact here
    · exact before slot (by omega)
  | _ => exact before slot used

end

/-- Settles O31: a fault changes no register, and an instruction that completes writes its listed ones. -/
theorem registersChangeOnlyByTheirWriters : Obligations.RegistersChangeOnlyByTheirWriters := by
  intro i s t r h other
  obtain ⟨f, -, -, rfl⟩ | ⟨-, rfl⟩ := exec_cases h
  · rfl
  · exact completion_v other

/-- Settles O39: a fault changes the latch alone, and an instruction that completes is no writer of the field. -/
theorem stateChangesOnlyByItsWriters : Obligations.StateChangesOnlyByItsWriters := by
  intro i s t h
  have keypad (other : ∀ x, i ≠ .ldVxK x) : t.kw = s.kw ∧ t.pk = s.pk := by
    obtain ⟨-, seen, latch⟩ := exec_keeps_keypad other h
    exact ⟨latch, seen⟩
  obtain ⟨f, -, -, rfl⟩ | ⟨-, rfl⟩ := exec_cases h
  · exact ⟨fun _ _ _ => rfl, fun _ => ⟨rfl, fun _ => rfl⟩, fun _ _ => rfl, fun _ => rfl, fun _ => rfl, keypad, rfl⟩
  · exact ⟨completion_i, fun call => ⟨completion_stack call, completion_sp call⟩, completion_fb, completion_dt,
      completion_st, keypad, completion_k⟩

/-- Settles O38: a fault changes no byte, and an instruction that completes writes its run alone. -/
theorem memoryChangesOnlyInTheStoredRun : Obligations.MemoryChangesOnlyInTheStoredRun := by
  intro i s t b wf h outside
  obtain ⟨f, -, -, rfl⟩ | ⟨table, rfl⟩ := exec_cases h
  · rfl
  · exact completion_mem_get wf table outside

end Sys2Proof.Machine
end

section
/-! PROOFS. The step: its four ways (40_step_and_dispatch.md R120), that it always has one next state (R125), and the
timers it leaves alone (45_timers_and_keypad.md section 3). -/

namespace Sys2Proof.Machine

/-- Settles O7: the four ways of R120, the fourth where the fetch succeeds. -/
theorem stepRunsTheDecodedInstruction : Obligations.StepRunsTheDecodedInstruction :=
  fun _ => ⟨step_of_faulted, fun _ => step_of_waiting, step_of_resolved, step_of_fetched⟩

/-! One next state -/

theorem exec_next (i : Instr) (s : State) : ∃ t, exec i s = .next t := by
  obtain ⟨f, -, -, raised⟩ | ⟨-, t, next, -⟩ := exec_raises_or_keeps_fault i s
  · exact ⟨_, raised⟩
  · exact ⟨t, next⟩

theorem step_next (s : State) : ∃ t, step s = .next t := by
  cases hf : s.fault with
  | some f => exact ⟨s, step_of_faulted (by simp [hf])⟩
  | none =>
    cases hk : s.kw with
    | waiting r => exact ⟨_, step_of_waiting hf hk⟩
    | resolved => exact ⟨_, step_of_resolved hf hk⟩
    | notWaiting =>
      obtain beyond | valid := Nat.lt_or_ge 0xFFE s.pc.toNat
      · exact ⟨_, step_of_fetch_fault hf hk beyond⟩
      · rw [step_of_fetched hf hk valid]
        exact exec_next _ s

theorem existsUnique_next {o : Host.Outcome State Fault Refusal} (h : ∃ t, o = .next t) : ∃! t, o = .next t := by
  obtain ⟨t, rfl⟩ := h
  exact ⟨t, rfl, fun _ eq => (Host.Outcome.next.inj eq).symm⟩

/-- Settles O9: no arm of `exec` faults or refuses, and neither does the rest of a step. -/
theorem stepAlwaysHasOneNextState : Obligations.StepAlwaysHasOneNextState :=
  ⟨fun s => existsUnique_next (step_next s), fun i s => existsUnique_next (exec_next i s)⟩

/-! The phases and the timers -/

/-- The waiting phase writes a register, the key-wait latch and `PK` at most (45_timers_and_keypad.md R234). -/
theorem waitPhase_frame (r : Reg) (s : State) :
    waitPhase r s = { s with v := (waitPhase r s).v, kw := (waitPhase r s).kw, pk := (waitPhase r s).pk } := by
  unfold waitPhase
  split <;> rfl

section
variable {i : Instr} {s t : State}

theorem exec_dt (other : ∀ x, i ≠ .ldDtVx x) (h : exec i s = .next t) : t.dt = s.dt := by
  obtain ⟨f, -, -, rfl⟩ | ⟨-, rfl⟩ := exec_cases h
  · rfl
  · exact completion_dt other

theorem exec_st (other : ∀ x, i ≠ .ldStVx x) (h : exec i s = .next t) : t.st = s.st := by
  obtain ⟨f, -, -, rfl⟩ | ⟨-, rfl⟩ := exec_cases h
  · rfl
  · exact completion_st other

/-- Whatever a step does beside executing an instruction, it leaves both timers alone. -/
theorem step_timers_or_exec (h : step s = .next t) :
    t.dt = s.dt ∧ t.st = s.st ∨ ∃ i, s.nextInstr = some i ∧ exec i s = .next t := by
  obtain ⟨-, rfl⟩ | ⟨-, r, -, rfl⟩ | ⟨-, -, rfl⟩ | ⟨-, -, f, -, rfl⟩ | ⟨hf, hk, w, fetched, next⟩ := step_cases h
  · exact .inl ⟨rfl, rfl⟩
  · rw [waitPhase_frame]
    exact .inl ⟨rfl, rfl⟩
  · exact .inl ⟨rfl, rfl⟩
  · exact .inl ⟨rfl, rfl⟩
  · exact .inr ⟨_, nextInstr_of_fetched hf hk fetched, next⟩

end

/-- Settles O51: only executing an instruction can set a timer, and only the timer's own instruction does. -/
theorem stepNeverCountsDown : Obligations.StepNeverCountsDown := by
  intro s t h
  obtain ⟨dt, st⟩ | ⟨i, runs, next⟩ := step_timers_or_exec h
  · exact ⟨fun _ => dt, fun _ => st⟩
  · have differs {j : Instr} (other : s.nextInstr ≠ some j) : i ≠ j := fun eq => other (runs.trans (congrArg some eq))
    exact ⟨fun other => exec_dt (fun x => differs (other x)) next,
      fun other => exec_st (fun x => differs (other x)) next⟩

/-! The placing of a word -/

/-- Settles O10: the decoder answers for every table word, and the word placed is the one fetched. -/
theorem placedWordRunsNext : Obligations.PlacedWordRunsNext :=
  fun s nbits w wf => ⟨_, decodeTableWord_eq nbits w, step_placeWord s (tableWord nbits w) wf⟩

end Sys2Proof.Machine
end

section
/-! PROOFS. The invariant of the Machine: the reset state has it, and every step and every other operation of the
host keeps it; so every state a host can reach has it. -/

namespace Sys2Proof.Machine

section
variable {i : Instr} {s : State} {f : Fault}

/-! A fault's record and its grounds (60_exceptions.md R260) -/

theorem Fault.grounds_congr {t : State} (sp : t.sp = s.sp) : f.grounds t ↔ f.grounds s := by
  cases f <;> simp only [Fault.grounds, sp]

theorem le_of_lowestInvalid {a n addr : Nat} (h : lowestInvalid a n = some addr) : 0x1000 ≤ addr := by
  unfold lowestInvalid at h
  split at h
  · obtain rfl := Option.some.inj h
    exact Nat.le_max_right a 0x1000
  · cases h

/-- The table's faults stand on their grounds. -/
theorem faultOf_grounds (h : faultOf i s = some f) : f.grounds s := by
  have outside {a n : Nat} {g : Nat → Fault} (grounds : ∀ addr, 0x1000 ≤ addr → (g addr).grounds s)
      (h : (lowestInvalid a n).map g = some f) : f.grounds s := by
    obtain ⟨addr, invalid, rfl⟩ := Option.map_eq_some_iff.1 h
    exact grounds addr (le_of_lowestInvalid invalid)
  cases i with
  | call nnn =>
    obtain ⟨full, ⟨⟩⟩ := Option.ite_none_right_eq_some.1 h
    exact full
  | ret =>
    obtain ⟨empty, ⟨⟩⟩ := Option.ite_none_right_eq_some.1 h
    exact empty
  | drw | ldB | storeRegs | loadRegs => exact outside (fun _ => id) h
  | _ => cases h

theorem pc_le_of_fetch_ok {w : Word} (h : fetch s = .ok w) : s.pc.toNat ≤ 0xFFE := by
  by_contra beyond
  exact nomatch (fetch_error s (Nat.lt_of_not_le beyond)).symm.trans h

theorem fetch_error_grounds (h : fetch s = .error f) : f.grounds s := by
  obtain beyond | valid := Nat.lt_or_ge 0xFFE s.pc.toNat
  · obtain rfl := Except.error.inj ((fetch_error s beyond).symm.trans h)
    exact Nat.le_max_right _ 0x1000
  · exact nomatch (fetch_ok s valid).symm.trans h

/-! What a step does, each way -/

theorem State.Inv.raise (inv : s.Inv) (hk : s.kw = .notWaiting) (pc : f.pc = s.pc) (grounds : f.grounds s) :
    (s.raise f).Inv where
  memory := inv.memory
  pcBound := inv.pcBound
  waitFetched := fun waits => absurd hk waits
  callSites := inv.callSites
  faultPc := by
    rintro g ⟨⟩
    exact pc
  faultGrounds := by
    rintro g ⟨⟩
    exact (Fault.grounds_congr rfl).2 grounds

theorem State.Inv.waitPhase (inv : s.Inv) {r : Reg} (hk : s.kw = .waiting r) : (waitPhase r s).Inv := by
  have fetched : s.pc.toNat ≤ 0xFFE ∧ s.fault = none := inv.waitFetched (by simp [hk])
  rw [waitPhase_frame]
  exact ⟨inv.memory, inv.pcBound, fun _ => fetched, inv.callSites, inv.faultPc, inv.faultGrounds⟩

/-- A `pc` that could be fetched from goes on by at most 4. -/
theorem pc_add_le {w d : Word} (h : w.toNat ≤ 0xFFE) (hd : d.toNat ≤ 4) : (w + d).toNat ≤ 0x1002 := by
  rw [BitVec.toNat_add]
  omega

theorem State.Inv.resolvedPhase (inv : s.Inv) (hk : s.kw = .resolved) : (resolvedPhase s).Inv := by
  obtain ⟨valid, running⟩ := inv.waitFetched (by simp [hk])
  have noFault {f : Fault} : s.fault ≠ some f := by simp [running]
  exact ⟨inv.memory, pc_add_le valid (by decide), fun waits => absurd rfl waits, inv.callSites,
    fun _ latched => absurd latched noFault, fun _ latched => absurd latched noFault⟩

/-- An instruction that was fetched and completes: `pc` moves on from an address that could be fetched from, jumps to
one of 12 bits, or returns past a call site (10_state.md R24). -/
theorem State.Inv.completion (inv : s.Inv) (hf : s.fault = none) (hk : s.kw = .notWaiting) (valid : s.pc.toNat ≤ 0xFFE)
    (table : faultOf i s = none) : (completion i s).Inv where
  memory := completion_mem_wf inv.memory table
  pcBound := by
    have back (ret : i = .ret) : (s.stack[s.sp.val - 1]'(by omega) + 2#16).toNat ≤ 0x1002 := by
      have depth : s.sp.val ≠ 0 := fun empty => by simp [ret, faultOf, empty] at table
      exact pc_add_le (inv.callSites ⟨s.sp.val - 1, by omega⟩ (Nat.sub_one_lt depth)) (by decide)
    refine completion_pc_of (P := fun w => w.toNat ≤ 0x1002) inv.pcBound (pc_add_le valid (by decide))
      (pc_add_le valid (by decide)) (fun nnn _ => ?_) back
    rw [addressWord_toNat]
    omega
  waitFetched := by
    intro waits
    by_cases wait : ∃ x, i = .ldVxK x
    · obtain ⟨x, rfl⟩ := wait
      exact ⟨valid, hf⟩
    · have latch := (exec_keeps_keypad (not_exists.1 wait) (exec_eq_completion table)).2.2
      exact absurd (latch.trans hk) waits
  callSites := completion_callSites (P := fun w => w.toNat ≤ 0xFFE) valid inv.callSites
  faultPc := fun _ latched => by simp [hf] at latched
  faultGrounds := fun _ latched => by simp [hf] at latched

end

/-- Settles O11: each way of a step keeps the invariant, the fourth whether the instruction raises or completes. -/
theorem stepKeepsInvariant : Obligations.StepKeepsInvariant := by
  intro s t inv h
  obtain ⟨-, rfl⟩ | ⟨-, r, hk, rfl⟩ | ⟨-, hk, rfl⟩ | ⟨-, hk, f, fetched, rfl⟩ | ⟨hf, hk, w, fetched, next⟩ :=
    step_cases h
  · exact inv
  · exact inv.waitPhase hk
  · exact inv.resolvedPhase hk
  · exact inv.raise hk (fault_pc_of_fetch_error fetched) (fetch_error_grounds fetched)
  · obtain ⟨f, table, pc, rfl⟩ | ⟨table, rfl⟩ := exec_cases next
    · exact inv.raise hk pc (faultOf_grounds table)
    · exact inv.completion hf hk (pc_le_of_fetch_ok fetched) table

/-! The other operations -/

/-- Settles O12: nothing is listed in memory, nothing is called, and nothing has faulted. -/
theorem resetHasInvariant : Obligations.ResetHasInvariant where
  memory := reset_memory_wf
  pcBound := by decide
  waitFetched := fun waits => absurd rfl waits
  callSites := fun _ used => absurd used (Nat.not_lt_zero _)
  faultPc := nofun
  faultGrounds := nofun

section
variable {s : State}

theorem State.Inv.load (inv : s.Inv) (bytes : List Byte) : (s.load bytes).1.Inv := by
  by_cases hf : s.fault = none
  · obtain long | fits := Nat.lt_or_ge 3584 bytes.length
    · rw [State.load_of_tooLarge hf long]
      exact inv
    · rw [load_of_fits hf fits]
      exact ⟨Memory.wf_setRun inv.memory (by omega), inv.pcBound, inv.waitFetched, inv.callSites, inv.faultPc,
        inv.faultGrounds⟩
  · rw [State.load_of_faulted hf]
    exact inv

theorem State.Inv.setKeys (inv : s.Inv) (keys : Keys) : (s.setKeys keys).Inv := by
  by_cases hf : s.fault = none
  · rw [State.setKeys_of_running hf]
    exact ⟨inv.memory, inv.pcBound, inv.waitFetched, inv.callSites, inv.faultPc, inv.faultGrounds⟩
  · rw [State.setKeys_of_faulted hf]
    exact inv

theorem State.Inv.tick (inv : s.Inv) : s.tick.1.Inv := by
  by_cases hf : s.fault = none
  · rw [State.tick_of_running hf]
    exact ⟨inv.memory, inv.pcBound, inv.waitFetched, inv.callSites, inv.faultPc, inv.faultGrounds⟩
  · rw [State.tick_of_faulted hf]
    exact inv

end

/-- Settles O13: only `Load` writes a field that the invariant speaks of. -/
theorem hostOperationsKeepInvariant : Obligations.HostOperationsKeepInvariant :=
  fun _ inv => ⟨inv.load, inv.setKeys, inv.tick, resetHasInvariant⟩

/-! Every reachable state -/

section
variable (session : Session) (s : State) (stepped : Bool)

/-! What each operation of a session answers (70_reset_and_hazards.md R291 to R294) -/

theorem Session.perform_reset : session.perform .reset = .next (.live State.reset false, .done) := by
  cases session <;> rfl

theorem Session.perform_beforeReset {op : Operation} (other : op ≠ .reset) :
    Session.beforeReset.perform op = .refused .operationBeforeReset := by
  cases op with
  | reset => exact absurd rfl other
  | _ => rfl

theorem Session.perform_load (bytes : List Byte) :
    (Session.live s false).perform (.load bytes) = .next (.live (s.load bytes).1 false, .loaded (s.load bytes).2) :=
  rfl

theorem Session.perform_load_stepped (bytes : List Byte) :
    (Session.live s true).perform (.load bytes) = .refused .loadAfterStep :=
  rfl

theorem Session.perform_setKeys (keys : Keys) :
    (Session.live s stepped).perform (.setKeys keys) = .next (.live (s.setKeys keys) stepped, .done) := by
  cases stepped <;> rfl

theorem Session.perform_tick :
    (Session.live s stepped).perform .tick = .next (.live s.tick.1 stepped, .ticked s.tick.2) := by
  cases stepped <;> rfl

theorem Session.perform_step {t : State} (h : step s = .next t) :
    (Session.live s stepped).perform .step = .next (.live t true, .stepped (faultRaised s t)) := by
  cases stepped <;> simp only [Session.perform, h]

/-- A session with a state performs every operation but a `Load` after a `Step`. -/
theorem Session.perform_live {op : Operation} (h : stepped = true → ∀ bytes, op ≠ .load bytes) :
    ∃ t stepped' result, (Session.live s stepped).perform op = .next (.live t stepped', result) := by
  cases op with
  | reset => exact ⟨_, _, _, Session.perform_reset _⟩
  | load bytes =>
    obtain rfl : stepped = false := Bool.eq_false_iff.2 fun after => h after bytes rfl
    exact ⟨_, _, _, Session.perform_load s bytes⟩
  | setKeys keys => exact ⟨_, _, _, Session.perform_setKeys s stepped keys⟩
  | tick => exact ⟨_, _, _, Session.perform_tick s stepped⟩
  | step =>
    obtain ⟨t, next⟩ := step_next s
    exact ⟨_, _, _, Session.perform_step s stepped next⟩

end

section
variable {session last : Session} {op : Operation} {ops : List Operation} {results : List Result}

/-- A sequence that is performed to its end: its first operation is performed, and then the others. -/
theorem Session.performAll_cons_iff :
    session.performAll (op :: ops) = .next (last, results) ↔
      ∃ after result rest, session.perform op = .next (after, result) ∧ after.performAll ops = .next (last, rest) ∧
        results = result :: rest := by
  constructor
  · intro h
    rw [Session.performAll] at h
    split at h
    · cases h
    · cases h
    case h_3 after result first =>
      split at h
      · cases h
      · cases h
      case h_3 rest others =>
        cases h
        exact ⟨after, result, _, first, others, rfl⟩
  · rintro ⟨after, result, rest, first, others, rfl⟩
    simp only [Session.performAll, first, others]

/-- The state of a session, where it has one, has the invariant. -/
def Session.Inv : Session → Prop
  | .beforeReset => True
  | .live s _ => s.Inv

theorem Session.Inv.perform {after : Session} {result : Result} (inv : session.Inv)
    (h : session.perform op = .next (after, result)) : after.Inv := by
  cases op with
  | reset =>
    rw [Session.perform_reset] at h
    cases h
    exact resetHasInvariant
  | load bytes =>
    match session, inv with
    | .live s false, inv =>
      cases h
      exact State.Inv.load inv bytes
  | setKeys keys =>
    match session, inv with
    | .live s stepped, inv =>
      rw [Session.perform_setKeys] at h
      cases h
      exact State.Inv.setKeys inv keys
  | tick =>
    match session, inv with
    | .live s stepped, inv =>
      rw [Session.perform_tick] at h
      cases h
      exact State.Inv.tick inv
  | step =>
    match session, inv with
    | .live s stepped, inv =>
      obtain ⟨t, next⟩ := step_next s
      rw [Session.perform_step s stepped next] at h
      cases h
      exact stepKeepsInvariant s t inv next

theorem Session.Inv.performAll (inv : session.Inv) (h : session.performAll ops = .next (last, results)) : last.Inv := by
  induction ops generalizing session results with
  | nil =>
    cases h
    exact inv
  | cons op ops ih =>
    obtain ⟨after, result, rest, first, others, -⟩ := Session.performAll_cons_iff.1 h
    exact ih (inv.perform first) others

end

/-- Settles O14: the invariant of sessions holds before the first `Reset`, and every operation keeps it. -/
theorem reachableStatesHaveInvariant : Obligations.ReachableStatesHaveInvariant := by
  intro ops s stepped results h
  have before : Session.beforeReset.Inv := trivial
  exact before.performAll h

/-! Legal sequences (R294) -/

/-- The sessions in which a sequence may go on from a place in the grammar: until the first `Reset` any, before the
first `Step` one that has not stepped. -/
def GrammarPlace.admits : GrammarPlace → Session → Prop
  | .start, _ => True
  | .loading, session => ∃ s, session = .live s false
  | .running, session => ∃ s stepped, session = .live s stepped

/-- An operation of a legal sequence is performed, and what follows is legal from a place that admits the session
after it. -/
def Continues (session : Session) (op : Operation) (ops : List Operation) : Prop :=
  ∃ place after result, session.perform op = .next (after, result) ∧ place.admits after ∧ legalFrom place ops = true

section
variable {session : Session} {op : Operation} {ops : List Operation}

/-- After a `Reset` every operation but `Load` is performed, and the sequence is past its `Load`s. -/
theorem continues_running (live : ∃ s stepped, session = .live s stepped) (noLoad : ∀ bytes, op ≠ .load bytes)
    (legal : legalFrom .running ops = true) : Continues session op ops := by
  obtain ⟨s, stepped, rfl⟩ := live
  obtain ⟨t, stepped', result, next⟩ := Session.perform_live s stepped fun _ => noLoad
  exact ⟨.running, _, result, next, ⟨t, stepped', rfl⟩, legal⟩

theorem continues_of_legal {place : GrammarPlace} (admitted : place.admits session)
    (legal : legalFrom place (op :: ops) = true) : Continues session op ops := by
  match place, op, admitted, legal with
  | .start, .reset, _, legal | .loading, .reset, _, legal | .running, .reset, _, legal =>
    exact ⟨.loading, _, _, session.perform_reset, ⟨_, rfl⟩, legal⟩
  | .loading, .load bytes, ⟨s, live⟩, legal =>
    rw [live]
    exact ⟨.loading, _, _, Session.perform_load s bytes, ⟨_, rfl⟩, legal⟩
  | .loading, .setKeys _, ⟨s, live⟩, legal | .loading, .step, ⟨s, live⟩, legal | .loading, .tick, ⟨s, live⟩, legal =>
    exact continues_running ⟨s, false, live⟩ nofun legal
  | .running, .setKeys _, live, legal | .running, .step, live, legal | .running, .tick, live, legal =>
    exact continues_running live nofun legal

theorem performAll_of_legal {place : GrammarPlace} (admitted : place.admits session)
    (legal : legalFrom place ops = true) :
    ∃ last results, session.performAll ops = .next (last, results) ∧ results.length = ops.length := by
  induction ops generalizing place session with
  | nil => exact ⟨session, [], rfl, rfl⟩
  | cons op ops ih =>
    obtain ⟨place', after, result, first, admitted', legal'⟩ := continues_of_legal admitted legal
    obtain ⟨last, rest, others, length⟩ := ih admitted' legal'
    exact ⟨last, result :: rest, Session.performAll_cons_iff.2 ⟨_, _, _, first, others, rfl⟩, congrArg (· + 1) length⟩

end

/-- Settles O56: at every place of the grammar the session performs whatever may come next. -/
theorem legalSequencesAreNeverRefused : Obligations.LegalSequencesAreNeverRefused :=
  fun _ legal => performAll_of_legal (place := .start) trivial legal

/-- Settles O57: before the first `Reset` only `Reset` is performed, after it all but a `Load` after a `Step`. -/
theorem onlyMeaninglessOperationsAreRefused : Obligations.OnlyMeaninglessOperationsAreRefused := by
  intro session op
  match session with
  | .beforeReset =>
    by_cases first : op = .reset
    · rw [first, Session.perform_reset]
      simp
    · rw [Session.perform_beforeReset first]
      simp [first]
  | .live s stepped =>
    by_cases late : stepped = true ∧ ∃ bytes, op = .load bytes
    · obtain ⟨rfl, bytes, rfl⟩ := late
      rw [Session.perform_load_stepped]
      simp
    · have noLateLoad : stepped = true → ∀ bytes, op ≠ .load bytes := fun after bytes load =>
        late ⟨after, bytes, load⟩
      obtain ⟨t, stepped', result, next⟩ := Session.perform_live s stepped noLateLoad
      rw [next]
      simpa using fun after => noLateLoad after

/-! Even addresses (20_memory.md R66) -/

theorem even_add {w d : Word} (h : w.toNat % 2 = 0) (hd : d.toNat % 2 = 0) : (w + d).toNat % 2 = 0 := by
  rw [BitVec.toNat_add]
  omega

theorem completion_evenPc {i : Instr} {s : State} (even : s.evenPc) (target : evenTarget i)
    (table : faultOf i s = none) : (completion i s).evenPc := by
  obtain ⟨pc, sites⟩ := even
  have back (ret : i = .ret) : (s.stack[s.sp.val - 1]'(by omega) + 2#16).toNat % 2 = 0 := by
    have depth : s.sp.val ≠ 0 := fun empty => by simp [ret, faultOf, empty] at table
    exact even_add (sites ⟨s.sp.val - 1, by omega⟩ (Nat.sub_one_lt depth)) (by decide)
  refine ⟨completion_pc_of (P := fun w => w.toNat % 2 = 0) pc (even_add pc (by decide)) (even_add pc (by decide))
    (fun nnn jump => ?_) back, completion_callSites (P := fun w => w.toNat % 2 = 0) pc sites⟩
  rw [addressWord_toNat]
  obtain rfl | rfl := jump
  · exact target
  · exact target

/-- Settles O26: each way of a step leaves `pc` or moves it by 2 or 4, but for a jump, a call and a return. -/
theorem pcStaysEven : Obligations.PcStaysEven := by
  intro s t even targets h
  obtain ⟨-, rfl⟩ | ⟨-, r, -, rfl⟩ | ⟨-, -, rfl⟩ | ⟨-, -, f, -, rfl⟩ | ⟨hf, hk, w, fetched, next⟩ := step_cases h
  · exact even
  · rw [waitPhase_frame]
    exact even
  · exact ⟨even_add even.1 (by decide), even.2⟩
  · exact even
  · obtain ⟨f, -, -, rfl⟩ | ⟨table, rfl⟩ := exec_cases next
    · exact even
    · exact completion_evenPc even (targets _ (nextInstr_of_fetched hf hk fetched)) table

end Sys2Proof.Machine
end

section
/-! PROOFS. Written words, and what several instructions, steps or ticks in a row come to. -/

namespace Sys2Proof.Machine

open Sys2Proof.Claims

/-! Words and bytes -/

/-- Settles O5: the decoder evaluated on each word. -/
theorem writtenWordsDecode : Obligations.WrittenWordsDecode := by
  unfold Obligations.WrittenWordsDecode
  decide

/-- Settles O6: the word of the first two bytes is their big-endian number. -/
theorem decodeBytesBigEndian : Obligations.DecodeBytesBigEndian :=
  ⟨fun high low rest => by rw [decodeBytes, wordOfBytes_eq_bigEndian], fun _ => rfl, rfl⟩

/-! Call and return, and the jump to itself -/

/-- Settles O23: the slot that the call wrote is the one the return reads. -/
theorem callThenReturnComesBack : Obligations.CallThenReturnComesBack := by
  intro s t nnn room call
  obtain rfl := Host.Outcome.next.inj ((execCall_ok nnn room).symm.trans call)
  refine (execRet_ok (Nat.succ_pos s.sp.val)).trans ?_
  simp

/-- A self-jump is executed, so the Machine runs, and it writes to `pc` what `pc` holds. -/
theorem step_of_atSelfJump {s : State} (h : s.atSelfJump) : step s = .next s := by
  obtain ⟨nnn, runs, self⟩ := h
  have jump : exec (.jp nnn) s = .next (s.jump (addressWord nnn)) := rfl
  rw [step_of_nextInstr runs, jump, self]
  rfl

theorem safe_of_nextInstr {s : State} {i : Instr} (h : s.nextInstr = some i) : s.safe := by
  unfold State.nextInstr at h
  split at h
  case isTrue ready => exact ready.1
  case isFalse => cases h

/-- Settles O25: the state is a fixed point of the step. -/
theorem jumpToSelfIsTheEnd : Obligations.JumpToSelfIsTheEnd := by
  intro s h n
  have ⟨_, runs, _⟩ := h
  exact ⟨run_fixed (step_of_atSelfJump h) n, safe_of_nextInstr runs⟩

/-! After a register dump -/

/-- A dump that leaves no fault lay in memory. -/
theorem inRange_of_storeRegs {s t : State} {x : Reg} (h : exec (.storeRegs x) s = .next t) (safe : t.fault = none) :
    InRange s.baseAddress (x.val + 1) := by
  by_contra outside
  have raised := execStoreRegs_error x (lowestInvalid_of_not_inRange outside)
  obtain rfl := Host.Outcome.next.inj (raised.symm.trans h)
  exact nomatch safe

/-- What a dump that does not fault leaves: `V0` to `Vx` in memory, and the rest of the state. -/
theorem storeRegs_stored {s t : State} {x : Reg} (wf : s.mem.wf) (h : exec (.storeRegs x) s = .next t)
    (safe : t.fault = none) :
    InRange s.baseAddress (x.val + 1) ∧ (∀ r : Reg, r.val ≤ x.val → t.mem.get (s.baseAddress + r.val) = s.v[r]) ∧
      t = { s with mem := t.mem, pc := t.pc } := by
  have inside := inRange_of_storeRegs h safe
  obtain ⟨u, next, stored, -, -, frame⟩ := exec_storeRegs_inRange x wf inside
  obtain rfl := Host.Outcome.next.inj (next.symm.trans h)
  exact ⟨inside, stored, frame⟩

/-- Settles O36: the load reads the run that the dump stored, at the same `I`. -/
theorem loadAfterDumpRestores : Obligations.LoadAfterDumpRestores := by
  intro s t x between wf _ dump safe
  obtain ⟨inside, stored, frame⟩ := storeRegs_stored wf dump safe
  have base : ({ t with v := between } : State).baseAddress = s.baseAddress := by rw [frame]; rfl
  obtain ⟨u, next, loaded, kept, -, -, rest⟩ := exec_loadRegs_inRange (s := { t with v := between }) x (base ▸ inside)
  have running : u.fault = none := by rw [rest]; exact safe
  refine ⟨u, next, running, fun r => ?_⟩
  split
  case isTrue le => rw [loaded r le, base, stored r le]
  case isFalse gt => exact kept r (Nat.lt_of_not_le gt)

/-- Settles O37: the two neighbours stored are the bytes the fetch reads. -/
theorem storedCodeIsFetched : Obligations.StoredCodeIsFetched := by
  intro s t x r r' wf hf hk dump safe next le u hu
  obtain ⟨inside, stored, frame⟩ := storeRegs_stored wf dump safe
  have top : s.baseAddress + (x.val + 1) ≤ 0x1000 := inside.resolve_left x.val.succ_ne_zero
  have address : u.pc.toNat = s.baseAddress + r.val := by
    rw [hu]
    exact Nat.mod_eq_of_lt (by omega)
  have ready : u.fault = none ∧ u.kw = .notWaiting := by rw [hu, frame]; exact ⟨hf, hk⟩
  have mem : u.mem = t.mem := by rw [hu]
  rw [step_of_fetched ready.1 ready.2 (by omega), address, mem, stored r (by omega),
    show s.baseAddress + r.val + 1 = s.baseAddress + r'.val by omega, stored r' le]

/-! Waiting -/

/-- Settles O48: after the first step `PK` is `K`, and from then on a step changes nothing. -/
theorem waitWithoutNewKeyNeverEnds : Obligations.WaitWithoutNewKeyNeverEnds := by
  intro s r hf hk noKey n
  have settled : ∀ key, ¬ NewlyDown { s with pk := s.k } key := fun key ⟨down, up⟩ =>
    Bool.false_ne_true (up.symm.trans down)
  rw [run_succ n (step_of_noNewKey hf hk noKey)]
  exact run_fixed (step_of_noNewKey (s := { s with pk := s.k }) hf hk settled) n

/-! Ticks -/

theorem tick_fault {s : State} (hf : s.fault = none) : s.tick.1.fault = none := by
  rw [State.tick_of_running hf, hf]

theorem ticks_timers {s : State} (hf : s.fault = none) (n : Nat) :
    (ticks n s).1.st.toNat = s.st.toNat - n ∧ (ticks n s).1.dt.toNat = s.dt.toNat - n := by
  induction n generalizing s with
  | zero => exact ⟨rfl, rfl⟩
  | succ n ih =>
    obtain ⟨dt, st, -⟩ := (tickCountsDown s).2 hf
    obtain ⟨sound, delay⟩ := ih (tick_fault hf)
    rw [ticks, sound, delay, dt, st]
    omega

/-- The `j + 1`-st tick finds the sound timer `j` lower, and buzzes when that is 1. -/
theorem ticks_buzz {s : State} (hf : s.fault = none) {n j : Nat} (h : j < n) :
    (ticks n s).2.getD j false = decide (j + 1 = s.st.toNat) := by
  induction n generalizing s j with
  | zero => exact absurd h j.not_lt_zero
  | succ n ih =>
    obtain ⟨-, st, buzz, -⟩ := (tickCountsDown s).2 hf
    rw [ticks]
    cases j with
    | zero =>
      rw [List.getD_cons_zero, Bool.eq_iff_iff, buzz, decide_eq_true_eq]
      omega
    | succ j =>
      rw [List.getD_cons_succ, ih (tick_fault hf) (Nat.lt_of_succ_lt_succ h), st]
      congr 1
      apply propext
      omega

/-- Settles O50: both timers count down by one a tick, and a tick buzzes where it finds the sound timer at 1. -/
theorem buzzerSoundsOnTheLastTick : Obligations.BuzzerSoundsOnTheLastTick :=
  fun _ n _ hf h => ⟨ticks_buzz hf h, ticks_timers hf n⟩

end Sys2Proof.Machine
end
